-- ==== Sys2Proof/Word.lean ====
section
/-! DEFINITION. The plain types of the machine's values: condition masks and register indices.

A value of a register, of a memory cell or of the ALU is an `Int`: the rules are written over mathematical
integers (R9, R11) and range-test them with `fits`; that the stored ones fit the width is an invariant (R44). -/

namespace Sys2Proof

/-- A condition mask or the condition flag: `FLAG_BITS = 4` bits, ANDed with one another (R28, R29). -/
abbrev Mask := BitVec 4

/-- A register index, 0 to 15 (R21, R138). -/
abbrev Reg := Fin 16

end Sys2Proof
end

