-- ==== Sys2Proof/Config.lean ====
section
/-! DEFINITION. The parameters of the hardware (R8): the ones the spec fixes and the record of the open ones. -/

namespace Sys2Proof

/-- `ZERO_INDEX` (R8, R22): the register that always reads zero. -/
def zeroIndex : Reg := 0

/-- `PC_INDEX` (R8, R24): the register that is the program counter. -/
def pcIndex : Reg := 15

/-- `ILEN` (R8, R66): the width of an instruction word. -/
def ilen : Nat := 32

/-- `OFFSET_BITS` (R8, R69): the width of the signed immediate offset. -/
def offsetBits : Nat := 10

/-- `DEFAULT_ENTRY` (R8, R52, R156): the start address when the run command gives none. -/
def defaultEntry : Int := 0

/-- The parameters the spec keeps open (R8, R9, R48). They are fixed for one machine: no step changes
them. `MEM_INIT`, the third one, is the memory of the state a run starts from, and `Config.memInit` at
the cells that memory does not list. -/
structure Config where
  /-- `XLEN`, the width of a register, of a cell and of an ALU result; `none` is the spec's
  `XLEN = unbounded`. -/
  xlen : Option Nat
  /-- `MEM_SIZE`, the number of memory cells. -/
  memSize : Nat
deriving DecidableEq, Repr

/-- `MEM_INIT` (R8, R53) at the addresses whose cells nobody has loaded or stored to: the free contents of
the memory, which R53 leaves unspecified and nothing can evaluate. `initialCell` brings them to the width
of a cell. Log entry 5. -/
opaque Config.memInit : Nat → Int

/-- The configuration of `State.reset`: `XLEN = 32` (R8, decision D1) and `MEM_SIZE = 1024`, the value
the spec's test vectors take (R48). DESIGN CHOICE for `MEM_SIZE`, log entry 2: the spec leaves it OPEN. -/
def Config.standard : Config := { xlen := some 32, memSize := 1024 }

end Sys2Proof
end

