-- ==== Sys2Proof/Syntax.lean ====
section
/-! DEFINITION. The decoded instruction (R63, R64): one constructor per row of spec/opcode_table.json. -/

namespace Sys2Proof

/-- The closed enumeration of operation codes (R64). -/
inductive Opcode where
  | halt | load | store | add | sub | mul | div
deriving DecidableEq, Repr

/-- The five operand fields that every instruction has, whatever its operation (R63: one format). -/
structure Fields where
  /-- The required condition mask. -/
  cond : Mask
  /-- The target register: written by arithmetic and LOAD, read by STORE. -/
  rt : Reg
  /-- Source register 1. -/
  rs1 : Reg
  /-- Source register 2, to which the offset is added. -/
  rs2 : Reg
  /-- The signed immediate offset, -512 to 511 in a well-formed instruction. -/
  offset : Int
deriving DecidableEq, Repr

/-- An instruction, once decoded (R63). HALT carries the fields it does not use, because the trace
output shows them as decoded (R75). -/
inductive Instr where
  | halt (f : Fields)
  | load (f : Fields)
  | store (f : Fields)
  | add (f : Fields)
  | sub (f : Fields)
  | mul (f : Fields)
  | div (f : Fields)
deriving DecidableEq, Repr

/-- The `op` field of the decoded record. -/
def Instr.op : Instr → Opcode
  | .halt _ => .halt
  | .load _ => .load
  | .store _ => .store
  | .add _ => .add
  | .sub _ => .sub
  | .mul _ => .mul
  | .div _ => .div

/-- The other five fields of the decoded record. -/
def Instr.fields : Instr → Fields
  | .halt f => f
  | .load f => f
  | .store f => f
  | .add f => f
  | .sub f => f
  | .mul f => f
  | .div f => f

/-- The record with operation `op` and operand fields `f`. -/
def Instr.make (op : Opcode) (f : Fields) : Instr :=
  match op with
  | .halt => .halt f
  | .load => .load f
  | .store => .store f
  | .add => .add f
  | .sub => .sub f
  | .mul => .mul f
  | .div => .div f

end Sys2Proof
end

