-- ==== Sys2Proof/WellFormed.lean ====
section
/-! DEFINITION. Which decoded instructions have an encoding. -/

namespace Sys2Proof

/-- The offset is a signed `OFFSET_BITS`-bit integer, -512 to 511 (R63, R69). The other fields are in
range by their types: four mask bits (R68) and indices 0 to 15 (R138). -/
def Fields.wellFormed (f : Fields) : Bool :=
  decide (-512 ≤ f.offset) && decide (f.offset ≤ 511)

/-- An instruction is well formed when its fields are; every operation has the same six (R63). -/
def Instr.wellFormed (i : Instr) : Bool := i.fields.wellFormed

end Sys2Proof
end

