-- ==== Sys2Proof/Decode.lean ====
section
/-! DEFINITION. The instruction word: bit fields, the decoder (R72) and the encoder (R76). -/

namespace Sys2Proof

/-- `w[hi:lo]`, the unsigned integer of bits `hi` down to `lo` of `w` (R10). -/
def bits (w hi lo : Nat) : Nat := w / 2 ^ lo % 2 ^ (hi + 1 - lo)

/-- `sext_N(v)`: the `n`-bit pattern `v` read as a two's-complement integer (R11). -/
def sext (n v : Nat) : Int := if v < 2 ^ (n - 1) then (v : Int) else (v : Int) - ((2 ^ n : Nat) : Int)

/-- The number of an operation code in a word (R67). -/
def opcodeNumber : Opcode → Nat
  | .halt => 0
  | .load => 1
  | .store => 2
  | .add => 3
  | .sub => 5
  | .mul => 6
  | .div => 7

/-- The operation an opcode number names; 4 and 8 to 31 name none (R67, R73). -/
def opcodeOfNumber : Nat → Option Opcode
  | 0 => some .halt
  | 1 => some .load
  | 2 => some .store
  | 3 => some .add
  | 5 => some .sub
  | 6 => some .mul
  | 7 => some .div
  | _ => none

/-- Bits `hi` down to `lo` as a register index; a register field is four bits wide (R66, R70). -/
def regField (w hi lo : Nat) : Reg := Fin.ofNat 16 (bits w hi lo)

/-- The operand fields of a word (R66, R68, R69, R72). -/
def decodeFields (w : Nat) : Fields :=
  { cond := BitVec.ofNat 4 (bits w 25 22)
    rt := regField w 21 18
    rs1 := regField w 17 14
    rs2 := regField w 13 10
    offset := sext 10 (bits w 9 0) }

/-- Why a word is malformed (R73). -/
inductive DecodeReject where
  /-- The cell's value lies outside `0 .. 2^31 - 1`, that is, bit 31 is set (R70, R71). -/
  | outsideWordRange
  /-- The opcode number is 4 or in 8 to 31 (R67). -/
  | unassignedOpcode (number : Nat)
deriving DecidableEq, Repr

/-- `decode(w)` (R72): total on every integer a cell can hold, and pure. -/
def decode (w : Int) : Except DecodeReject Instr :=
  if w < 0 ∨ 2 ^ 31 ≤ w then .error .outsideWordRange
  else
    match opcodeOfNumber (bits w.toNat 30 26) with
    | none => .error (.unassignedOpcode (bits w.toNat 30 26))
    | some op => .ok (Instr.make op (decodeFields w.toNat))

/-- `encode` (R76), as the natural number whose bits are the word's. -/
def encodeNat (i : Instr) : Nat :=
  opcodeNumber i.op * 2 ^ 26 + i.fields.cond.toNat * 2 ^ 22 + i.fields.rt.val * 2 ^ 18
    + i.fields.rs1.val * 2 ^ 14 + i.fields.rs2.val * 2 ^ 10 + (i.fields.offset % 2 ^ 10).toNat

/-- The word of an instruction, as the value of the cell that holds it (R71, R76). -/
def encode (i : Instr) : Int := (encodeNat i : Nat)

/-- The cell value whose 32-bit pattern is the low `nbits` bits of `w`: a cell is signed, so a pattern
with bit 31 set is a negative value (R71). One word is one cell (R65). -/
def cellOfPattern (nbits w : Nat) : Int := sext 32 (w % 2 ^ nbits % 2 ^ 32)

/-- What the decoder reads from an instruction whose bits are `w`, laid out in one cell. -/
def decodeTableWord (nbits w : Nat) : Option Instr :=
  match decode (cellOfPattern nbits w) with
  | .ok i => some i
  | .error _ => none

end Sys2Proof
end

