-- ==== Sys2Proof/Machine/Range.lean ====
section
/-! DEFINITION. The one range test of the spec (R9) and the range of the open parameters (R48). -/

namespace Sys2Proof.Machine

/-- `fits(v)` (R9): `-2^(XLEN-1) <= v <= 2^(XLEN-1) - 1`, and true of every integer when `XLEN` is
unbounded. -/
def fits (c : Config) (v : Int) : Bool :=
  match c.xlen with
  | none => true
  | some n => decide (-((2 ^ (n - 1) : Nat) : Int) ≤ v) && decide (v ≤ ((2 ^ (n - 1) : Nat) : Int) - 1)

/-- The configurations the spec admits: `1 <= MEM_SIZE <= 2^(XLEN-1) - 1` (R8, R48), and a cell wide
enough for a 32-bit instruction word (R46). DEDUCED for the lower bound on `XLEN`, log entry 3. -/
def configWf (c : Config) : Bool :=
  decide (1 ≤ c.memSize) &&
    match c.xlen with
    | none => true
    | some n => decide (ilen ≤ n) && decide (c.memSize ≤ 2 ^ (n - 1) - 1)

/-- A valid address (R47): exactly `0 <= a <= MEM_SIZE - 1`. No address wraps. -/
def validAddress (c : Config) (a : Int) : Bool := decide (0 ≤ a) && decide (a < (c.memSize : Int))

/-- The value of a cell that nobody has loaded or stored to (R53): the free contents at its address, read
as a two's-complement pattern of the width of a cell (R46). Log entry 5. -/
def initialCell (c : Config) (a : Nat) : Int :=
  match c.xlen with
  | none => Config.memInit a
  | some n => Int.bmod (Config.memInit a) (2 ^ n)

end Sys2Proof.Machine
end

