-- ==== Sys2Proof/Machine/Flags.lean ====
section
/-! DEFINITION. The condition flag: its values, how it is derived from a result, how it is tested. -/

namespace Sys2Proof.Machine

/-- M, negative: bit 0 (R29). -/
def flagM : Mask := 1#4

/-- Z, zero: bit 1 (R29). -/
def flagZ : Mask := 2#4

/-- P, positive: bit 2 (R29). -/
def flagP : Mask := 4#4

/-- V, invalid or overflow: bit 3 (R29). -/
def flagV : Mask := 8#4

/-- ALWAYS: all four bits (R29). It is the flag after reset (R28) and a condition mask. -/
def always : Mask := 15#4

/-- NEVER: no bit (R29, R74). A condition mask only. -/
def never : Mask := 0#4

/-- Flag derivation from a numeric result (R91): negative M, zero Z, positive P. -/
def signFlag (e : Int) : Mask := if e < 0 then flagM else if e = 0 then flagZ else flagP

/-- The predicate test (R102): satisfied exactly when the AND of flag and condition is non-zero. -/
def satisfied (flag cond : Mask) : Bool := decide (flag &&& cond ≠ 0#4)

end Sys2Proof.Machine
end

