-- ==== Sys2Proof/Machine/State.lean ====
section
/-! DEFINITION. The state of the machine as plain data, the reasons a step can stop, and the state after reset. -/

namespace Sys2Proof.Machine

/-- The memory (R46): the listed cells as (address, value) pairs, one entry per whole cell, which is the
smallest unit any access moves (R49). Log entry 4. -/
abbrev Memory := List (Nat × Int)

/-- The engine's run-state (R33). -/
inductive RunState where
  | idle | running | halted | faulted
deriving DecidableEq, Repr

/-- The causes the fault latch records (R134). -/
inductive FaultCause where
  /-- `FetchAddressFault`, code 1. -/
  | fetchAddress
  /-- `DecodeFault`, code 2. -/
  | decode
  /-- `DataAddressFault` of a LOAD, code 3. -/
  | loadAddress
  /-- `DataAddressFault` of a STORE, code 4. -/
  | storeAddress
deriving DecidableEq, Repr

/-- The record of the fault latch (R35). -/
structure FaultRecord where
  cause : FaultCause
  /-- The offending address or word. -/
  info : Int
  /-- The address of the instruction being stepped. -/
  atPc : Int
deriving DecidableEq, Repr

/-- One step event, as the trace ports carry it (R147). -/
structure TraceEvent where
  pc : Int
  word : Int
  instr : Instr
deriving DecidableEq, Repr

/-- The engine's control inputs as sampled at one clock edge (R40). -/
structure Inputs where
  rst : Bool
  runStart : Bool
  runAddr : Int
  singleStep : Bool
  stepAck : Bool
deriving DecidableEq, Repr

/-- An edge at which the host drives nothing. -/
def Inputs.quiet : Inputs :=
  { rst := false, runStart := false, runAddr := 0, singleStep := false, stepAck := false }

/-- The state: every piece R20, R35 and R41 name, the configuration (R8), and three fields of the
model's own (`trace`, a record of the last event; `stepped`, implied by R161; `inputs`, what the host
will drive). -/
structure State where
  /-- The open parameters; no step changes them. -/
  config : Config
  /-- Registers r1 to r15; r0 has no storage (R22) and r15 is the program counter (R24). -/
  regs : Vector Int 15
  /-- The condition flag register (R28). -/
  flag : Mask
  /-- The halted boolean (R32). -/
  halted : Bool
  /-- The engine run-state `state` (R33). -/
  runState : RunState
  /-- The fault latch (R35). -/
  fault : Option FaultRecord
  /-- The memory the engine is attached to (R39). -/
  mem : Memory
  /-- The record of the event that the last edge published, for a history of a run (R149). The model's own
  field, log entry 11: the trace outputs themselves are `tracePort`. -/
  trace : Option TraceEvent
  /-- Whether the current run has performed a step, which the single-step wait needs (R161). The
  model's own field, log entry 8. -/
  stepped : Bool
  /-- The control inputs at the coming edges, the next one first; at an edge past the end of the list
  the host drives nothing. The model's own field, log entry 7. -/
  inputs : List Inputs
deriving DecidableEq, Repr

/-- The reasons for which a step ends in `Host.Outcome.fault`: none. The spec describes the entry of
every fault it has (R140, R141): the run-state becomes FAULTED and the latch records the fault, so
each is a next state. Log entry 6. Safe: no step is cut short. -/
inductive Fault where
deriving DecidableEq, Repr

/-- The reasons for which a step is refused. -/
inductive Refusal where
  /-- Raised by an arm of `exec` whose instruction has no meaning yet; no arm is left so. Safe. -/
  | notModelled (mnemonic : String)
  /-- Raised by the clock edge of a state whose configuration R48 excludes: the spec orders that such a
  configuration be refused (U8 of 93_implementation_defined.md). Safe. -/
  | configurationOutOfRange
  /-- Raised by a run command whose `run_addr` is no `XLEN`-bit value: the port cannot carry it (R40,
  R156). Safe. -/
  | runAddressOutOfRange
deriving DecidableEq, Repr

/-- The outcome of a step or of a meaning. -/
abbrev Result := Host.Outcome State Fault Refusal

/-- The machine right after hardware reset (R41, R153). The spec gives memory no reset value (R53,
R155): nothing is listed, and every cell has its free initial value, log entry 5. It leaves the
parameters open: `Config.standard` is a DESIGN CHOICE, log entry 2. -/
def State.reset : State :=
  { config := Config.standard
    regs := Vector.replicate 15 0
    flag := always
    halted := false
    runState := .idle
    fault := none
    mem := []
    trace := none
    stepped := false
    inputs := [] }

end Sys2Proof.Machine
end

