-- ==== Sys2Proof/Machine/Ops.lean ====
section
/-! DEFINITION. The named operations over registers and memory, fault entry, reset and the run command. -/

namespace Sys2Proof.Machine

/-- `x[i]` (R12, R22): 0 for register 0, the cell's value otherwise. -/
def readReg (s : State) (r : Reg) : Int :=
  if h : r.val = 0 then 0 else s.regs[r.val - 1]'(by have := r.isLt; omega)

/-- `x[i] <- v` (R12, R22): nothing for register 0, otherwise the cell is set. -/
def writeReg (r : Reg) (v : Int) (s : State) : State :=
  if h : r.val = 0 then s
  else { s with regs := s.regs.set (r.val - 1) v (by have := r.isLt; omega) }

/-- The program counter, another name for `x[15]` (R24, R26). -/
def pc (s : State) : Int := readReg s pcIndex

/-- The advance (R27, R106): the program counter plus one cell. -/
def advance (s : State) : State := writeReg pcIndex (pc s + 1) s

/-- `flag <- v` (R109). -/
def setFlag (v : Mask) (s : State) : State := { s with flag := v }

/-- The value the memory lists for address `a`, or none: then nobody has loaded or stored to the cell. -/
def lookup : Memory → Nat → Option Int
  | [], _ => none
  | (k, v) :: rest, a => if a = k then some v else if a < k then none else lookup rest a

/-- The memory with the cell at `a` set to `v`, in canonical form. -/
def store : Memory → Nat → Int → Memory
  | [], a, v => [(a, v)]
  | (k, x) :: rest, a, v =>
    if a < k then (a, v) :: (k, x) :: rest
    else if a = k then (a, v) :: rest
    else (k, x) :: store rest a v

/-- The canonical form of a memory: addresses strictly rising. An address that is not listed has no known
value, so no entry can equal what it reads as. -/
abbrev Memory.wf (m : Memory) : Prop := m.Pairwise (fun c d => c.1 < d.1)

/-- The value of the cell at a valid address: the one listed, else the free initial one (R53). -/
def cellValue (s : State) (a : Nat) : Int := (lookup s.mem a).getD (initialCell s.config a)

/-- `MemRead(a, 1)` (R13, R47); `none` where it raises the addressing fault. -/
def memRead (s : State) (a : Int) : Option Int :=
  if validAddress s.config a then some (cellValue s a.toNat) else none

/-- `MemWrite(a, 1, v)` (R13, R47); `none` where it raises the addressing fault. -/
def memWrite (a v : Int) (s : State) : Option State :=
  if validAddress s.config a then some { s with mem := store s.mem a.toNat v } else none

/-- The cause code of a fault (R134). -/
def causeCode : FaultCause → Nat
  | .fetchAddress => 1
  | .decode => 2
  | .loadAddress => 3
  | .storeAddress => 4

/-- Fault entry (R14, R140): `state <- FAULTED` and the latch records the cause, the offending value and
the address of the instruction being stepped; what the step did before stays, no handler runs. -/
def raise (cause : FaultCause) (info atPc : Int) (s : State) : State :=
  { s with runState := .faulted, fault := some { cause := cause, info := info, atPc := atPc } }

/-- The publication of the step event (R101, R147), before any effect of the instruction. -/
def publish (e : TraceEvent) (s : State) : State := { s with trace := some e }

/-- Hardware reset (R41, R153): creation values, in any state; memory is not touched. -/
def hardwareReset (s : State) : State :=
  { s with
    regs := Vector.replicate 15 0, flag := always, halted := false, runState := .idle,
    fault := none, trace := none, stepped := false }

/-- The run command (R42, R156): registers r1 to r14, the flag and memory persist; the address is not
checked against the memory (D27). -/
def runCommand (fromAddress : Int) (s : State) : State :=
  { writeReg pcIndex fromAddress s with
    halted := false, runState := .running, fault := none, stepped := false }

/-- The control inputs the coming edge samples. -/
def sample (s : State) : Inputs := s.inputs.headD Inputs.quiet

/-- The inputs to come with the next sample made quiet. -/
def quietNext : List Inputs → List Inputs
  | [] => []
  | _ :: rest => Inputs.quiet :: rest

/-- What every edge does first: it uses up one sample, and the record of the last event is cleared. -/
def beginEdge (s : State) : State := { s with inputs := s.inputs.tail, trace := none }

end Sys2Proof.Machine
end

