-- ==== Sys2Proof/Machine/Cycle.lean ====
section
/-! DEFINITION. One clock edge up to the execution of an instruction: reset, run command, single-step wait, fetch, decode, publish. -/

namespace Sys2Proof.Machine

/-- What an edge comes to: an outcome of its own, or an instruction to execute on a state. -/
inductive EdgeResult where
  | settled (o : Result)
  | execute (i : Instr) (s : State)

/-- Fetch, decode and publish (R98 lines 1 to 3, R99 to R101). A bad address or a malformed word ends the
step with nothing done but the fault entry (R135, R136). -/
def fetchDecode (s : State) : EdgeResult :=
  match memRead s (pc s) with
  | none => .settled (.next (raise .fetchAddress (pc s) (pc s) s))
  | some w =>
    match decode w with
    | .error _ => .settled (.next (raise .decode w (pc s) s))
    | .ok i => .execute i (publish { pc := pc s, word := w, instr := i } s)

/-- The single-step wait (R161): after a step of this run, while `single_step` is 1 and not
acknowledged. DESIGN CHOICE in two points the spec leaves open, log entry 8. -/
def waitsForAck (p : Inputs) (s : State) : Bool := s.stepped && p.singleStep && !p.stepAck

/-- An edge outside a run (R111, R154, R156): a run command is taken, else nothing happens. -/
def betweenRuns (p : Inputs) (s : State) : Result :=
  if p.runStart then
    (if fits s.config p.runAddr then .next (runCommand p.runAddr s)
      else .refused .runAddressOutOfRange)
  else .next s

/-- One rising clock edge (R168, R170): `rst` before everything else; a step while RUNNING and not
waiting, `run_start` being ignored (R159); the run command otherwise. -/
def clockEdge (s : State) : EdgeResult :=
  if !configWf s.config then .settled (.refused .configurationOutOfRange)
  else if (sample s).rst then .settled (.next (hardwareReset (beginEdge s)))
  else if s.runState = .running then
    (if waitsForAck (sample s) s then .settled (.next (beginEdge s))
      else fetchDecode { beginEdge s with stepped := true })
  else .settled (betweenRuns (sample s) (beginEdge s))

/-- The state in which the coming edge runs an instruction whose bits are `w`: the word stands in the
cell at the program counter (at the default entry where the program counter is no valid address), the
engine is RUNNING as after a run command there, and the coming edge samples a quiet host. -/
def placeFetchWord (s : State) (nbits w : Nat) : State :=
  let a := if validAddress s.config (pc s) then pc s else defaultEntry
  let placed := { s with
    mem := store s.mem a.toNat (cellOfPattern nbits w), inputs := quietNext s.inputs }
  if s.runState = .running then writeReg pcIndex a placed else runCommand a placed

end Sys2Proof.Machine
end

