-- ==== Sys2Proof/Machine/Alu.lean ====
section
/-! DEFINITION. The arithmetic-logic unit: opcode and two integers in, result and derived flag out (R83). -/

namespace Sys2Proof.Machine

/-- The exact result of an operation, over the integers (R84 to R90, R94). DIV rounds toward negative
infinity (R87); its value for a zero divisor is not used. -/
def exactResult (op : Opcode) (left right : Int) : Int :=
  match op with
  | .add => left + right
  | .sub => left - right
  | .mul => left * right
  | .div => Int.fdiv left right
  | .load => left + right
  | .store => left + right
  | .halt => 0

/-- The operations whose result is range-tested and whose flag the engine keeps (R83, R97). -/
def isArithmetic : Opcode → Bool
  | .add => true
  | .sub => true
  | .mul => true
  | .div => true
  | .load => false
  | .store => false
  | .halt => false

/-- An arithmetic fault (R88, R92, R93): a zero divisor, or an arithmetic result that does not fit. -/
def arithmeticFault (c : Config) (op : Opcode) (left right : Int) : Bool :=
  (decide (op = .div) && decide (right = 0)) ||
    (isArithmetic op && !fits c (exactResult op left right))

/-- `ALU(op, left, right)` (R83): total and pure; an arithmetic fault gives `(0, V)`. -/
def alu (c : Config) (op : Opcode) (left right : Int) : Int × Mask :=
  if arithmeticFault c op left right then (0, flagV)
  else (exactResult op left right, signFlag (exactResult op left right))

end Sys2Proof.Machine
end

