-- ==== Sys2Proof/Machine/Operands.lean ====
section
/-! DEFINITION. The operands of an instruction and the one addressing mode. -/

namespace Sys2Proof.Machine

/-- `left = x[rs1]` (R104), read before the advance. -/
def leftOperand (f : Fields) (s : State) : Int := readReg s f.rs1

/-- `right = x[rs2] + offset` (R94, R104), exact, read before the advance. -/
def rightOperand (f : Fields) (s : State) : Int := readReg s f.rs2 + f.offset

/-- The ALU's answer for an instruction with operation `op` (R105). -/
def aluOf (op : Opcode) (f : Fields) (s : State) : Int × Mask :=
  alu s.config op (leftOperand f s) (rightOperand f s)

/-- The address of a LOAD (R89, R119): the ALU's sum, exact, never wrapped. -/
def loadAddress (f : Fields) (s : State) : Int := (aluOf .load f s).1

/-- The address of a STORE (R89, R119): the ALU's sum, exact, never wrapped. -/
def storeAddress (f : Fields) (s : State) : Int := (aluOf .store f s).1

/-- Predication (R102, R103): the effect when flag and condition meet, else only the advance. -/
def predicated (f : Fields) (s : State) (effect : State) : Result :=
  if satisfied s.flag f.cond then .next effect else .next (advance s)

end Sys2Proof.Machine
end

