-- ==== Sys2Proof/Machine/Arithmetic.lean ====
section
/-! DEFINITION. The meanings of ADD, SUB, MUL and DIV (R113 to R118). -/

namespace Sys2Proof.Machine

/-- The effect of an executed arithmetic instruction (R113): operands and ALU, then the advance, then
the target register, then the flag. -/
def arithmeticEffect (op : Opcode) (f : Fields) (s : State) : State :=
  setFlag (aluOf op f s).2 (writeReg f.rt (aluOf op f s).1 (advance s))

/-- ADD (R114). -/
def execAdd (f : Fields) (s : State) : Result := predicated f s (arithmeticEffect .add f s)

/-- SUB (R115): the offset is part of the subtrahend. -/
def execSub (f : Fields) (s : State) : Result := predicated f s (arithmeticEffect .sub f s)

/-- MUL (R116): the offset is part of the multiplier. -/
def execMul (f : Fields) (s : State) : Result := predicated f s (arithmeticEffect .mul f s)

/-- DIV (R117): floor division; a zero divisor is not an exception. -/
def execDiv (f : Fields) (s : State) : Result := predicated f s (arithmeticEffect .div f s)

end Sys2Proof.Machine
end

