-- ==== Sys2Proof/Machine/Halt.lean ====
section
/-! DEFINITION. The meaning of HALT (R123). -/

namespace Sys2Proof.Machine

/-- The effect of an executed HALT (R123): the advance, then `halted <- true` and `state <- HALTED`. The
source registers and the ALU's answer `(0, Z)` are read and discarded, without effect (R90, R97). -/
def haltEffect (s : State) : State := { advance s with halted := true, runState := .halted }

/-- HALT (R123); its register and offset fields have no effect (R75). -/
def execHalt (f : Fields) (s : State) : Result := predicated f s (haltEffect s)

end Sys2Proof.Machine
end

