-- ==== Sys2Proof/Machine/LoadStore.lean ====
section
/-! DEFINITION. The meanings of LOAD and STORE (R119 to R122). -/

namespace Sys2Proof.Machine

/-- The effect of an executed LOAD (R120): the advance, then the read, then the target register. An
invalid address raises `DataAddressFault` after the advance (R137, R141). -/
def loadEffect (f : Fields) (s : State) : State :=
  match memRead (advance s) (loadAddress f s) with
  | none => raise .loadAddress (loadAddress f s) (pc s) (advance s)
  | some v => writeReg f.rt v (advance s)

/-- The effect of an executed STORE (R121): the advance, then the write of the target register's value,
which is read after the advance (R108). An invalid address raises `DataAddressFault` (R137, R141). -/
def storeEffect (f : Fields) (s : State) : State :=
  match memWrite (storeAddress f s) (readReg (advance s) f.rt) (advance s) with
  | none => raise .storeAddress (storeAddress f s) (pc s) (advance s)
  | some t => t

/-- LOAD (R120). -/
def execLoad (f : Fields) (s : State) : Result := predicated f s (loadEffect f s)

/-- STORE (R121). -/
def execStore (f : Fields) (s : State) : Result := predicated f s (storeEffect f s)

end Sys2Proof.Machine
end

