-- ==== Sys2Proof/Machine/Step.lean ====
section
/-! DEFINITION. One step of the machine: one clock edge. -/

namespace Sys2Proof.Machine

/-- One clock edge (R98, R168): what `clockEdge` settles itself, else the instruction it fetched. -/
def step (s : State) : Host.Outcome State Fault Refusal :=
  match clockEdge s with
  | .settled o => o
  | .execute i t => exec i t

/-- `s` with the instruction whose bits are `w` stored where `step` fetches next. -/
def State.withFetchWord (s : State) (nbits w : Nat) : State := placeFetchWord s nbits w

end Sys2Proof.Machine
end

