-- ==== Sys2Proof/Machine/Assembly.lean ====
section
/-! DEFINITION. The assembly notation of the spec (R78): its lines, what they assemble to, how they are written and read. -/

namespace Sys2Proof.Machine

/-- `OP` of the grammar (R78): every mnemonic but HALT. -/
inductive AsmOp where
  | add | sub | mul | div | load | store
deriving DecidableEq, Repr

/-- One assembly line (R78). An absent offset or condition is `none`. -/
inductive AsmLine where
  | three (op : AsmOp) (rt rs1 rs2 : Reg) (offset : Option Int) (cond : Option Mask)
  | halt (cond : Option Mask)
  | word (n : Int)
deriving DecidableEq, Repr

/-- The operation code of a mnemonic. -/
def asmOpcode : AsmOp → Opcode
  | .add => .add
  | .sub => .sub
  | .mul => .mul
  | .div => .div
  | .load => .load
  | .store => .store

/-- The instruction of a line (R78, R79); a data cell has none. An omitted offset is 0, an omitted
condition ALWAYS, and HALT assembles with zero registers and offset. -/
def asmInstr : AsmLine → Option Instr
  | .three op rt rs1 rs2 offset cond =>
    some (Instr.make (asmOpcode op)
      { cond := cond.getD always, rt := rt, rs1 := rs1, rs2 := rs2, offset := offset.getD 0 })
  | .halt cond =>
    some (.halt { cond := cond.getD always, rt := 0, rs1 := 0, rs2 := 0, offset := 0 })
  | .word _ => none

/-- The cell a line assembles to (R76, R78). -/
def assemble (l : AsmLine) : Int :=
  match l with
  | .word n => n
  | .three op rt rs1 rs2 offset cond =>
    encode (Instr.make (asmOpcode op)
      { cond := cond.getD always, rt := rt, rs1 := rs1, rs2 := rs2, offset := offset.getD 0 })
  | .halt cond =>
    encode (.halt { cond := cond.getD always, rt := 0, rs1 := 0, rs2 := 0, offset := 0 })

/-- The spelling of a mnemonic (R78). -/
def asmOpText : AsmOp → String
  | .add => "ADD"
  | .sub => "SUB"
  | .mul => "MUL"
  | .div => "DIV"
  | .load => "LOAD"
  | .store => "STORE"

/-- The spelling of a register (R78). -/
def regText (r : Reg) : String := "r" ++ toString r.val

/-- The spelling of a condition (R78): NEVER, ALWAYS, or flag names joined by a bar. -/
def condText (m : Mask) : String :=
  if m = never then "NEVER"
  else if m = always then "ALWAYS"
  else String.intercalate "|"
    (([(flagM, "M"), (flagZ, "Z"), (flagP, "P"), (flagV, "V")].filter
      (fun e => satisfied m e.1)).map (·.2))

/-- The text of a line (R78). -/
def asmText : AsmLine → String
  | .three op rt rs1 rs2 offset cond =>
    asmOpText op ++ " " ++ regText rt ++ "," ++ regText rs1 ++ "," ++ regText rs2
      ++ (match offset with
          | none => ""
          | some k => ",offset=" ++ toString k)
      ++ (match cond with
          | none => ""
          | some c => ",cond=" ++ condText c)
  | .halt cond =>
    "HALT" ++ (match cond with
      | none => ""
      | some c => ",cond=" ++ condText c)
  | .word n => ".word " ++ toString n

/-- The pieces of a text between the occurrences of a separator. -/
def splitAtChar (c : Char) : List Char → List (List Char)
  | [] => [[]]
  | x :: xs =>
    if x = c then [] :: splitAtChar c xs
    else
      match splitAtChar c xs with
      | [] => [[x]]
      | piece :: pieces => (x :: piece) :: pieces

/-- What follows a prefix of a text. -/
def afterPrefix : List Char → List Char → Option (List Char)
  | [], text => some text
  | _ :: _, [] => none
  | p :: ps, x :: xs => if p = x then afterPrefix ps xs else none

/-- The value of a text of decimal digits, after those read so far. -/
def digitsFrom (read : Nat) : List Char → Option Nat
  | [] => some read
  | x :: xs =>
    if '0'.toNat ≤ x.toNat ∧ x.toNat ≤ '9'.toNat then digitsFrom (10 * read + (x.toNat - '0'.toNat)) xs
    else none

/-- A decimal integer with an optional minus sign. -/
def parseInt : List Char → Option Int
  | [] => none
  | x :: xs =>
    if x = '-' then (if xs = [] then none else (digitsFrom 0 xs).map fun n => -(n : Int))
    else (digitsFrom 0 (x :: xs)).map fun n => (n : Int)

/-- `reg` of the grammar (R78). -/
def parseReg (text : List Char) : Option Reg :=
  (List.finRange 16).find? fun r => decide ((regText r).toList = text)

/-- `OP` of the grammar (R78). -/
def parseOp (text : List Char) : Option AsmOp :=
  [AsmOp.add, .sub, .mul, .div, .load, .store].find? fun op => decide ((asmOpText op).toList = text)

/-- `flagname` of the grammar (R78). -/
def parseFlagName (text : List Char) : Option Mask :=
  if text = ['M'] then some flagM else if text = ['Z'] then some flagZ
  else if text = ['P'] then some flagP else if text = ['V'] then some flagV else none

/-- The union of a list of flag names. -/
def parseFlagNames : List (List Char) → Option Mask
  | [] => some never
  | name :: names =>
    match parseFlagName name, parseFlagNames names with
    | some m, some n => some (m ||| n)
    | _, _ => none

/-- `condition` of the grammar (R78). -/
def parseCond (text : List Char) : Option Mask :=
  if text = "NEVER".toList then some never else if text = "ALWAYS".toList then some always
  else parseFlagNames (splitAtChar '|' text)

/-- `int` of the grammar (R78): in the range of an offset. -/
def parseOffset (text : List Char) : Option Int :=
  (parseInt text).filter fun k => decide (-512 ≤ k) && decide (k ≤ 511)

/-- The optional condition at the end of a line. -/
def parseLastCond : List (List Char) → Option (Option Mask)
  | [] => some none
  | [piece] => ((afterPrefix "cond=".toList piece).bind parseCond).map some
  | _ :: _ :: _ => none

/-- The optional offset and condition at the end of a line. -/
def parseOptions : List (List Char) → Option (Option Int × Option Mask)
  | [] => some (none, none)
  | piece :: pieces =>
    match afterPrefix "offset=".toList piece with
    | some text =>
      match parseOffset text, parseLastCond pieces with
      | some k, some c => some (some k, c)
      | _, _ => none
    | none => (parseLastCond (piece :: pieces)).map fun c => (none, c)

/-- A line of the grammar of R78 from its text. -/
def parseAsm (text : String) : Option AsmLine :=
  match splitAtChar ',' text.toList with
  | [] => none
  | head :: rest =>
    match splitAtChar ' ' head with
    | [one] => if one = "HALT".toList then (parseLastCond rest).map AsmLine.halt else none
    | [one, two] =>
      if one = ".word".toList then (if rest = [] then (parseInt two).map AsmLine.word else none)
      else
        match parseOp one, parseReg two, rest with
        | some op, some rt, b :: c :: options =>
          match parseReg b, parseReg c, parseOptions options with
          | some rs1, some rs2, some (offset, cond) => some (.three op rt rs1 rs2 offset cond)
          | _, _, _ => none
        | _, _, _ => none
    | _ => none

end Sys2Proof.Machine
end

