-- ==== Sys2Proof/Machine/Ports.lean ====
section
/-! DEFINITION. The output ports of the hardware as functions of the state (R40, R62, R147). -/

namespace Sys2Proof.Machine

/-- The code of `state_o` (R40). -/
def stateCode : RunState → BitVec 2
  | .idle => 0#2
  | .running => 1#2
  | .halted => 2#2
  | .faulted => 3#2

/-- `fault_cause_o` (R40): 0 when the latch holds nothing, else the cause code. -/
def faultCauseOut (s : State) : BitVec 3 :=
  match s.fault with
  | none => 0#3
  | some r => BitVec.ofNat 3 (causeCode r.cause)

/-- The step event on the trace outputs (R101, R147): that of the instruction which the coming edge runs,
so that it stands beside the registers and the flag from before the step; none where `trace_valid = 0`,
at an edge that resets, takes a run command, waits, or faults at the fetch or the decode (R148). -/
def tracePort (s : State) : Option TraceEvent :=
  match clockEdge s with
  | .settled _ => none
  | .execute _ t => t.trace

/-- The status and trace outputs (R40). `fault_info_o`, `fault_pc_o` and the trace fields are `none` where
the spec gives them no value, with an empty latch or with `trace_valid = 0`: log entry 12. -/
structure StatusPorts where
  haltedO : Bool
  stateO : BitVec 2
  faultCauseO : BitVec 3
  faultInfoO : Option Int
  faultPcO : Option Int
  flagO : Mask
  regO : List Int
  traceValid : Bool
  tracePc : Option Int
  traceWord : Option Int
  traceInstr : Option Instr
deriving DecidableEq, Repr

/-- The status and trace outputs in the cycle that ends at the coming edge (R40, R147). -/
def statusPorts (s : State) : StatusPorts :=
  { haltedO := s.halted
    stateO := stateCode s.runState
    faultCauseO := faultCauseOut s
    faultInfoO := s.fault.map (·.info)
    faultPcO := s.fault.map (·.atPc)
    flagO := s.flag
    regO := (List.finRange 16).map (readReg s)
    traceValid := (tracePort s).isSome
    tracePc := (tracePort s).map (·.pc)
    traceWord := (tracePort s).map (·.word)
    traceInstr := (tracePort s).map (·.instr) }

/-- `imem_addr` (R40, R62): the instruction-fetch address. -/
def imemAddr (s : State) : Int := pc s

/-- `imem_rdata` (R40, R62): the cell at the fetch address; `none` where there is none. -/
def imemRdata (s : State) : Option Int := memRead s (imemAddr s)

/-- `imem_err` (R40, R62): the fetch address is not valid. -/
def imemErr (s : State) : Bool := !validAddress s.config (imemAddr s)

/-- The data port of the memory (R40, R62). A value is `none` where the spec gives the port none: log entry
12. -/
structure DataPort where
  /-- `dmem_addr`; `none` where no access is made. -/
  addr : Option Int
  /-- `dmem_rdata`, the cell at the address; `none` where there is none. -/
  rdata : Option Int
  /-- `dmem_we`: an executed STORE with a valid address, else 0. -/
  we : Bool
  /-- `dmem_wdata`, the value stored; `none` where nothing is stored. -/
  wdata : Option Int
  /-- `dmem_err`, the address is not valid; `none` where no access is made. -/
  err : Option Bool
deriving DecidableEq, Repr

/-- The data port where no access is made: the write enable is 0 (R40). -/
def DataPort.idle : DataPort :=
  { addr := none, rdata := none, we := false, wdata := none, err := none }

/-- The data access of an instruction whose predicate has been met; only LOAD and STORE make one (R45,
R56). -/
def dataAccess (i : Instr) (s : State) : DataPort :=
  match i with
  | .load f =>
    { addr := some (loadAddress f s), rdata := memRead s (loadAddress f s), we := false, wdata := none
      err := some (!validAddress s.config (loadAddress f s)) }
  | .store f =>
    let valid := validAddress s.config (storeAddress f s)
    { addr := some (storeAddress f s), rdata := memRead s (storeAddress f s), we := valid
      wdata := if valid then some (readReg (advance s) f.rt) else none, err := some (!valid) }
  | .halt _ => .idle
  | .add _ => .idle
  | .sub _ => .idle
  | .mul _ => .idle
  | .div _ => .idle

/-- The data port during the coming edge: an access only where the edge executes a LOAD or a STORE under
a satisfied predicate (R62, R103). -/
def dataPort (s : State) : DataPort :=
  match clockEdge s with
  | .settled _ => .idle
  | .execute i t => if satisfied t.flag i.fields.cond then dataAccess i t else .idle

end Sys2Proof.Machine
end

