-- ==== Sys2Proof/Safety.lean ====
section
/-! DEFINITION. The terms statements are made in: the invariant, runs and their ends, frames. -/

namespace Sys2Proof.Machine

/-- The values the flag register can hold (R28, R44). -/
def legalFlags : List Mask := [always, flagM, flagZ, flagP, flagV]

/-- The flags an arithmetic instruction can leave (R28, R91). -/
def resultFlags : List Mask := [flagM, flagZ, flagP, flagV]

/-- The memory is in canonical form, lists only valid addresses and holds only values that fit (R46). -/
structure MemoryOk (c : Config) (m : Memory) : Prop where
  canonical : m.wf
  inRange : ∀ e ∈ m, e.1 < c.memSize
  valuesFit : ∀ e ∈ m, fits c e.2 = true

/-- The invariant of R44, with the canonical form of the memory and an admitted configuration (R48). -/
structure Inv (s : State) : Prop where
  configOk : configWf s.config = true
  zeroReads : readReg s zeroIndex = 0
  regsFit : ∀ r : Reg, fits s.config (readReg s r) = true
  memOk : MemoryOk s.config s.mem
  flagLegal : s.flag ∈ legalFlags
  haltedAgrees : s.halted = true ↔ s.runState = .halted
  faultAgrees : s.fault.isSome = true ↔ s.runState = .faulted

/-- The state right after a hardware reset, over any admitted configuration, any loaded memory
(`MEM_INIT`, R53) and any inputs to come. -/
structure AfterReset (s : State) : Prop where
  configOk : configWf s.config = true
  memOk : MemoryOk s.config s.mem
  isReset : hardwareReset s = s

/-- The states the machine can be in: after reset, after an edge, and after the host's load of a cell
between runs (R17, R44). DEDUCED, log entries 13 and 14. -/
inductive Reachable : State → Prop where
  | afterReset {s : State} : AfterReset s → Reachable s
  | edge {s t : State} : Reachable s → step s = .next t → Reachable t
  | load {s t : State} {a v : Int} : Reachable s → s.runState ≠ .running →
      fits s.config v = true → memWrite a v s = some t → Reachable t

/-- The coming edge performs a step (R111, R168, R170): an admitted configuration, no reset, RUNNING, and
no wait for an acknowledgment. -/
structure StepsAt (s : State) : Prop where
  configOk : configWf s.config = true
  notReset : (sample s).rst = false
  running : s.runState = .running
  notWaiting : waitsForAck (sample s) s = false

/-- The coming edge performs a step that fetches the word `w` and decodes it to `i` (R98). -/
structure Fetches (s : State) (w : Int) (i : Instr) : Prop where
  steps : StepsAt s
  word : memRead s (pc s) = some w
  decodes : decode w = .ok i

/-- The state a step executes its instruction on: one sample used up, a step of this run on record, and
the event published (R101). -/
def begun (w : Int) (i : Instr) (s : State) : State :=
  { s with
    inputs := s.inputs.tail, stepped := true,
    trace := some { pc := pc s, word := w, instr := i } }

/-- The state of a step before its event: what a fetch or decode fault leaves but for the fault entry. -/
def begunSilently (s : State) : State :=
  { s with inputs := s.inputs.tail, stepped := true, trace := none }

/-- The coming edge performs a step that raises a fault, with the cause and the `info` recorded (R134). -/
inductive FaultsAt (s : State) : FaultCause → Int → Prop where
  | fetch : StepsAt s → validAddress s.config (pc s) = false → FaultsAt s .fetchAddress (pc s)
  | word {w : Int} {e : DecodeReject} : StepsAt s → memRead s (pc s) = some w → decode w = .error e →
      FaultsAt s .decode w
  | load {w : Int} {f : Fields} : Fetches s w (.load f) → satisfied s.flag f.cond = true →
      validAddress s.config (loadAddress f s) = false → FaultsAt s .loadAddress (loadAddress f s)
  | store {w : Int} {f : Fields} : Fetches s w (.store f) → satisfied s.flag f.cond = true →
      validAddress s.config (storeAddress f s) = false → FaultsAt s .storeAddress (storeAddress f s)

/-- The coming edge takes a run command: no reset, not RUNNING, `run_start` (R156, R159). -/
def TakesRunCommand (s : State) : Prop :=
  (sample s).rst = false ∧ s.runState ≠ .running ∧ (sample s).runStart = true

/-- The coming edge executes, under a satisfied predicate, an instruction with operation `op`. -/
def Executes (s : State) (op : Opcode) (f : Fields) : Prop :=
  ∃ w, Fetches s w (Instr.make op f) ∧ satisfied s.flag f.cond = true

/-- `s'` is `s` in the spec's reference configuration, registers and cells of unbounded width (R9): all else
is the same, and every address reads the same. -/
structure ReferenceOf (s s' : State) : Prop where
  config : s'.config = { s.config with xlen := none }
  regs : s'.regs = s.regs
  flag : s'.flag = s.flag
  halted : s'.halted = s.halted
  runState : s'.runState = s.runState
  fault : s'.fault = s.fault
  trace : s'.trace = s.trace
  stepped : s'.stepped = s.stepped
  inputs : s'.inputs = s.inputs
  memory : ∀ a : Int, memRead s' a = memRead s a
  canonical : s.mem.wf ∧ s'.mem.wf

/-- The coming edge sets V by a zero divisor or not at all: no exact result overflows (R9, R88, R92). -/
def VOnlyByZeroDivisor (s : State) : Prop :=
  ∀ op f, isArithmetic op = true → Executes s op f → (aluOf op f s).2 = flagV →
    op = .div ∧ rightOperand f s = 0

/-- A run has ended (R160). -/
def Ended (s : State) : Prop := s.runState = .halted ∨ s.runState = .faulted

/-- The only good end of a run (R19, R160). -/
def GoodEnd (s : State) : Prop := s.runState = .halted ∧ s.halted = true ∧ s.fault = none

/-- The run loop (R157): steps while RUNNING, until an end. -/
inductive RunsTo : State → State → Prop where
  | ended {s : State} : Ended s → RunsTo s s
  | step {s t u : State} : s.runState = .running → Machine.step s = .next t → RunsTo t u → RunsTo s u

/-- `Run(s0, from, s_end)` of R157. -/
def Run (s : State) (fromAddress : Int) (sEnd : State) : Prop := RunsTo (runCommand fromAddress s) sEnd

/-- `k` edges; `none` where one of them is refused. -/
def edges : Nat → State → Option State
  | 0, s => some s
  | k + 1, s =>
    match step s with
    | .next t => edges k t
    | .fault _ => none
    | .refused _ => none

/-- What single-stepping may not change (R161): the state without the model's own fields, the record
of the last event, the record of a step in this run and the inputs to come. -/
def architectural (s : State) : State := { s with trace := none, stepped := false, inputs := [] }

/-- The parts of the state no instruction writes. -/
structure SameEnvironment (s t : State) : Prop where
  config : t.config = s.config
  trace : t.trace = s.trace
  stepped : t.stepped = s.stepped
  inputs : t.inputs = s.inputs

/-- The halted boolean, the run-state and the fault latch are unchanged. -/
structure SameControl (s t : State) : Prop where
  halted : t.halted = s.halted
  runState : t.runState = s.runState
  fault : t.fault = s.fault

/-- Every cell, at every address, reads as before (and an invalid address is still invalid). -/
def SameMemory (s t : State) : Prop := ∀ a : Int, memRead t a = memRead s a

/-- Every cell but the one at `addr` reads as before. -/
def SameMemoryBut (addr : Int) (s t : State) : Prop :=
  ∀ a : Int, a ≠ addr → memRead t a = memRead s a

/-- Every register but the program counter and `rt` reads as before. -/
def SameRegistersBut (rt : Reg) (s t : State) : Prop :=
  ∀ r : Reg, r ≠ rt → r ≠ pcIndex → readReg t r = readReg s r

/-- Every register but the program counter reads as before. -/
def SameRegisters (s t : State) : Prop := ∀ r : Reg, r ≠ pcIndex → readReg t r = readReg s r

end Sys2Proof.Machine
end

