-- ==== Sys2Proof/Certificates/Slice0/Obligations.lean ====
section
/-! DEFINITION. The statements for the provers, by subject: encoding, ALU, state, instructions, steps, runs. -/

open Sys2Proof Sys2Proof.Machine

/-! ## Encoding -/

/-- R76: `encode` is the sum of the shifted fields, and it and `decode` are inverse to one another, on
every well-formed record and on every well-formed word. -/
def Obligations.EncodeAndDecodeAreInverse : Prop :=
  (∀ i : Instr, i.wellFormed = true →
    encode i = (opcodeNumber i.op * 2 ^ 26 + i.fields.cond.toNat * 2 ^ 22 + i.fields.rt.val * 2 ^ 18
      + i.fields.rs1.val * 2 ^ 14 + i.fields.rs2.val * 2 ^ 10 : Nat) + i.fields.offset % 2 ^ 10 ∧
    decode (encode i) = .ok i) ∧
  ∀ (w : Int) (i : Instr), decode w = .ok i → encode i = w

/-- R81: every integer decodes to exactly one record, a well-formed one, or is rejected, and no two words
decode to the same record. -/
def Obligations.DecodeIsTotalAndInjective : Prop :=
  (∀ w : Int, (∃ i, decode w = .ok i ∧ i.wellFormed = true ∧ ∀ j, decode w = .ok j → j = i) ∨
    ∃ e, decode w = .error e) ∧
  ∀ (v w : Int) (i : Instr), decode v = .ok i → decode w = .ok i → v = w

/-- R72: the decoder, over the bits of a word as bit vectors cut them. -/
def Obligations.DecodeReadsTheFields : Prop :=
  (∀ w : Int, w < 0 ∨ 2 ^ 31 ≤ w → ∃ e, decode w = .error e) ∧
  (∀ b : BitVec 32, b.toNat < 2 ^ 31 →
    let f : Fields := {
      cond := b.extractLsb 25 22, rt := (b.extractLsb 21 18).toFin, rs1 := (b.extractLsb 17 14).toFin
      rs2 := (b.extractLsb 13 10).toFin, offset := (b.extractLsb 9 0).toInt }
    let n := (b.extractLsb 30 26).toNat
    (n = 0 → decode b.toNat = .ok (.halt f)) ∧ (n = 1 → decode b.toNat = .ok (.load f)) ∧
    (n = 2 → decode b.toNat = .ok (.store f)) ∧ (n = 3 → decode b.toNat = .ok (.add f)) ∧
    (n = 5 → decode b.toNat = .ok (.sub f)) ∧ (n = 6 → decode b.toNat = .ok (.mul f)) ∧
    (n = 7 → decode b.toNat = .ok (.div f)) ∧
    (n = 4 ∨ 8 ≤ n → ∃ e, decode b.toNat = .error e)) ∧
  decode 264503301 = .ok (.add { cond := always, rt := 1, rs1 := 0, rs2 := 0, offset := 5 })

/-- R77: an operation is selected by six bits of the 32-bit pattern, and a pattern that matches none is
rejected. The pattern reaches the decoder as the signed value of a cell (R71). -/
def Obligations.MatchAndMaskSelectTheOperation : Prop :=
  let matchWord : Opcode → BitVec 32 := fun op =>
    match op with
    | .halt => 0x00000000#32
    | .load => 0x04000000#32
    | .store => 0x08000000#32
    | .add => 0x0C000000#32
    | .sub => 0x14000000#32
    | .mul => 0x18000000#32
    | .div => 0x1C000000#32
  ∀ b : BitVec 32,
    (∀ op : Opcode, (∃ f, decode b.toInt = .ok (Instr.make op f)) ↔
      b &&& 0xFC000000#32 = matchWord op) ∧
    ((∀ op : Opcode, b &&& 0xFC000000#32 ≠ matchWord op) → ∃ e, decode b.toInt = .error e)

/-- R73: which words are malformed, and that fetching one raises `DecodeFault(w)` whatever the flag. -/
def Obligations.MalformedWordsFaultWhenFetched : Prop :=
  (∀ w : Int, (∃ e, decode w = .error e) ↔
    (w < 0 ∨ 2 ^ 31 - 1 < w ∨ w / 2 ^ 26 = 4 ∨ (8 ≤ w / 2 ^ 26 ∧ w / 2 ^ 26 ≤ 31))) ∧
  ∀ (s : State) (w : Int), StepsAt s → memRead s (pc s) = some w →
    (w < 0 ∨ 2 ^ 31 - 1 < w ∨ w / 2 ^ 26 = 4 ∨ (8 ≤ w / 2 ^ 26 ∧ w / 2 ^ 26 ≤ 31)) →
    ∃ t, step s = .next t ∧ t.runState = .faulted ∧
      t.fault = some { cause := .decode, info := w, atPc := pc s }

/-- R82: the worked encodings, in both directions. -/
def Obligations.WorkedEncodings : Prop :=
  let row (w : Int) (i : Instr) : Prop := decode w = .ok i ∧ encode i = w
  row 0x0FC40005 (.add { cond := always, rt := 1, rs1 := 0, rs2 := 0, offset := 5 }) ∧
  row 0x0BC40064 (.store { cond := always, rt := 1, rs1 := 0, rs2 := 0, offset := 100 }) ∧
  row 0x03C00000 (.halt { cond := always, rt := 0, rs1 := 0, rs2 := 0, offset := 0 }) ∧
  row 0x0D3FC3FE (.add { cond := flagP, rt := 15, rs1 := 15, rs2 := 0, offset := -2 }) ∧
  row 0x049E25FF (.load { cond := flagZ, rt := 7, rs1 := 8, rs2 := 9, offset := 511 }) ∧
  row 0x16115A00 (.sub { cond := flagV, rt := 4, rs1 := 5, rs2 := 6, offset := -512 })

/-- R78: the instruction of an assembly line whose offset is in range is the one its word decodes to;
an omitted offset is 0, an omitted condition ALWAYS. -/
def Obligations.AssembledLinesDecodeToTheirInstruction : Prop :=
  (∀ (l : AsmLine) (i : Instr), asmInstr l = some i → i.wellFormed = true →
    decode (assemble l) = .ok i) ∧
  ∀ (op : AsmOp) (rt rs1 rs2 : Reg),
    assemble (.three op rt rs1 rs2 none none) = assemble (.three op rt rs1 rs2 (some 0) (some always)) ∧
    assemble (.halt none) = 0x03C00000

/-! ## The ALU and the flag -/

/-- R83: the whole function of the ALU, over the mathematical integers. -/
def Obligations.AluComputesItsTable : Prop :=
  let sign (e : Int) : Mask := if e < 0 then flagM else if e = 0 then flagZ else flagP
  let tested (c : Config) (e : Int) : Int × Mask := if fits c e then (e, sign e) else (0, flagV)
  ∀ (c : Config) (l r : Int),
    alu c .add l r = tested c (l + r) ∧ alu c .sub l r = tested c (l - r) ∧
    alu c .mul l r = tested c (l * r) ∧
    alu c .div l r = (if r = 0 then (0, flagV) else tested c (Int.floor ((l : ℚ) / (r : ℚ)))) ∧
    alu c .load l r = (l + r, sign (l + r)) ∧ alu c .store l r = (l + r, sign (l + r)) ∧
    alu c .halt l r = (0, flagZ)

/-- R91: the flag is a function of the result alone, one of M, Z and P, but for V, which comes from a zero
divisor or an overflow only and always with result 0. -/
def Obligations.DerivedFlagFollowsResult : Prop :=
  ∀ (c : Config) (op : Opcode) (l r : Int),
    ((alu c op l r).2 = flagM ↔ (alu c op l r).1 < 0) ∧
    ((alu c op l r).2 = flagP ↔ 0 < (alu c op l r).1) ∧
    (((alu c op l r).2 = flagZ ∨ (alu c op l r).2 = flagV) ↔ (alu c op l r).1 = 0) ∧
    ((alu c op l r).2 = flagM ∨ (alu c op l r).2 = flagZ ∨ (alu c op l r).2 = flagP ∨
      (alu c op l r).2 = flagV) ∧
    ((alu c op l r).2 = flagV ↔ (op = .div ∧ r = 0) ∨
      (isArithmetic op = true ∧ fits c (exactResult op l r) = false))

/-- R87: DIV with a non-zero divisor rounds toward negative infinity: the truncated quotient where the
signs agree or the division is exact, one less otherwise; and the rule's examples. -/
def Obligations.DivisionRoundsDown : Prop :=
  (∀ e ∈ [((7 : Int), (2 : Int), (3 : Int), flagP), (-7, 2, -4, flagM), (7, -2, -4, flagM), (-7, -2, 3, flagP),
      (1, 2, 0, flagZ), (-1, 2, -1, flagM), (1, -2, -1, flagM), (0, -5, 0, flagZ), (6, 3, 2, flagP),
      (-6, 3, -2, flagM)],
    alu Config.standard .div e.1 e.2.1 = e.2.2) ∧
  ∀ (c : Config) (l r : Int), r ≠ 0 → (alu c .div l r).2 ≠ flagV →
    let q := (alu c .div l r).1
    (0 < r → q * r ≤ l ∧ l < q * r + r) ∧ (r < 0 → l ≤ q * r ∧ q * r + r < l) ∧
    ((0 ≤ l ∧ 0 < r) ∨ (l ≤ 0 ∧ r < 0) ∨ r ∣ l → q = Int.tdiv l r) ∧
    ((l < 0 ∧ 0 < r) ∨ (0 < l ∧ r < 0) → ¬ r ∣ l → q = Int.tdiv l r - 1)

/-- R95: the division sign table and the laws of floor division, for quotients that fit. -/
def Obligations.DivisionSignsAndLaws : Prop :=
  ∀ (c : Config) (l r : Int), r ≠ 0 → (alu c .div l r).2 ≠ flagV →
    let q := (alu c .div l r).1
    ((0 < l ∧ 0 < r) ∨ (l < 0 ∧ r < 0) → 0 ≤ q ∧ (q = 0 ↔ Int.natAbs l < Int.natAbs r)) ∧
    ((l < 0 ∧ 0 < r) ∨ (0 < l ∧ r < 0) → q < 0) ∧ (l = 0 → q = 0) ∧
    (r = 1 → q = l) ∧ (r = -1 → q = -l) ∧ alu c .div (-l) (-r) = (q, (alu c .div l r).2) ∧
    (l - r * q = 0 ∨ (0 < r ∧ 0 < l - r * q) ∨ (r < 0 ∧ l - r * q < 0))

/-- R88: a zero divisor gives `(0, V)` for every dividend, a divisor that is not zero gives V by overflow
alone, and the divisor an executed DIV tests is `x[rs2] + offset`; the run goes on. -/
def Obligations.ZeroDivisorGivesZeroAndV : Prop :=
  (∀ (c : Config) (a : Int), alu c .div a 0 = (0, flagV)) ∧
  (∀ (c : Config) (a d : Int), d ≠ 0 → fits c (Int.floor ((a : ℚ) / (d : ℚ))) = true →
    (alu c .div a d).2 ≠ flagV) ∧
  ∀ (f : Fields) (s : State), satisfied s.flag f.cond = true → readReg s f.rs2 + f.offset = 0 →
    ∃ t, exec (.div f) s = .next t ∧ t.flag = flagV ∧ readReg t f.rt = 0 ∧ SameControl s t ∧
      (f.rt ≠ pcIndex → pc t = pc s + 1)

/-- R92: an arithmetic result that does not fit gives `(0, V)`; at 32 bits these are the results below
-2147483648 or above 2147483647, and one quotient alone. -/
def Obligations.OverflowGivesZeroAndV : Prop :=
  (∀ (c : Config) (op : Opcode) (l r : Int), isArithmetic op = true →
    fits c (exactResult op l r) = false → alu c op l r = (0, flagV)) ∧
  (∀ (m : Nat) (e : Int), fits { xlen := some 32, memSize := m } e = false ↔
    e < -2147483648 ∨ 2147483647 < e) ∧
  ∀ (m : Nat) (l r : Int), fits { xlen := some 32, memSize := m } l = true → r ≠ 0 →
    (fits { xlen := some 32, memSize := m } (exactResult .div l r) = false ↔
      l = -2147483648 ∧ r = -1)

/-- R102: the predicate test, and what it says of the masks under the reachable flags. -/
def Obligations.PredicateIsTheMeetOfFlagAndCondition : Prop :=
  (∀ flag cond : Mask, satisfied flag cond = true ↔ flag &&& cond ≠ 0#4) ∧
  (∀ cond : Mask, satisfied always cond = true ↔ cond ≠ never) ∧
  (∀ cond : Mask, (satisfied flagM cond = true ↔ cond.getLsbD 0 = true) ∧
    (satisfied flagZ cond = true ↔ cond.getLsbD 1 = true) ∧
    (satisfied flagP cond = true ↔ cond.getLsbD 2 = true) ∧
    (satisfied flagV cond = true ↔ cond.getLsbD 3 = true)) ∧
  (∀ flag ∈ legalFlags, satisfied flag always = true) ∧
  ∀ flag : Mask, satisfied flag never = false

/-! ## Registers and memory -/

/-- R12, R22: register 0 reads zero and discards writes; the others hold what was last written. -/
def Obligations.RegisterZeroDiscardsWrites : Prop :=
  ∀ (s : State) (v : Int),
    readReg s zeroIndex = 0 ∧ writeReg zeroIndex v s = s ∧
    (∀ r : Reg, r ≠ zeroIndex → readReg (writeReg r v s) r = v) ∧
    ∀ r q : Reg, r ≠ q → readReg (writeReg q v s) r = readReg s r

/-- R13, R47: one cell is read, one cell is written, at valid addresses only, and no address wraps. -/
def Obligations.MemoryReadsWhatWasWritten : Prop :=
  ∀ (s : State) (a v : Int), s.mem.wf →
    (0 ≤ a ∧ a < s.config.memSize → (∃ u, memRead s a = some u) ∧
      ∃ t, memWrite a v s = some t ∧ memRead t a = some v ∧ SameMemoryBut a s t ∧
        t = { s with mem := t.mem }) ∧
    (a < 0 ∨ (s.config.memSize : Int) ≤ a → memRead s a = none ∧ memWrite a v s = none)

/-! ## The instructions: results, completion and frame -/

/-- R114: an executed ADD, for every operand form. -/
def Obligations.AddCompletes : Prop :=
  ∀ (f : Fields) (s : State), satisfied s.flag f.cond = true →
    let e := readReg s f.rs1 + (readReg s f.rs2 + f.offset)
    ∃ t, exec (.add f) s = .next t ∧
      (∀ r : Reg, readReg t r = if r = zeroIndex then 0
        else if r = f.rt then (if fits s.config e then e else 0)
        else if r = pcIndex then pc s + 1 else readReg s r) ∧
      t.flag = (if fits s.config e then
        (if e < 0 then flagM else if e = 0 then flagZ else flagP) else flagV) ∧
      SameMemory s t ∧ SameControl s t ∧ SameEnvironment s t

/-- R115: an executed SUB, for every operand form; the offset is part of the subtrahend. -/
def Obligations.SubCompletes : Prop :=
  ∀ (f : Fields) (s : State), satisfied s.flag f.cond = true →
    let e := readReg s f.rs1 - (readReg s f.rs2 + f.offset)
    ∃ t, exec (.sub f) s = .next t ∧
      (∀ r : Reg, readReg t r = if r = zeroIndex then 0
        else if r = f.rt then (if fits s.config e then e else 0)
        else if r = pcIndex then pc s + 1 else readReg s r) ∧
      t.flag = (if fits s.config e then
        (if e < 0 then flagM else if e = 0 then flagZ else flagP) else flagV) ∧
      SameMemory s t ∧ SameControl s t ∧ SameEnvironment s t

/-- R116: an executed MUL, for every operand form; the offset is part of the multiplier. -/
def Obligations.MulCompletes : Prop :=
  ∀ (f : Fields) (s : State), satisfied s.flag f.cond = true →
    let e := readReg s f.rs1 * (readReg s f.rs2 + f.offset)
    ∃ t, exec (.mul f) s = .next t ∧
      (∀ r : Reg, readReg t r = if r = zeroIndex then 0
        else if r = f.rt then (if fits s.config e then e else 0)
        else if r = pcIndex then pc s + 1 else readReg s r) ∧
      t.flag = (if fits s.config e then
        (if e < 0 then flagM else if e = 0 then flagZ else flagP) else flagV) ∧
      SameMemory s t ∧ SameControl s t ∧ SameEnvironment s t

/-- R117: an executed DIV, for every operand form, a zero divisor and the overflow among them. -/
def Obligations.DivCompletes : Prop :=
  ∀ (f : Fields) (s : State), satisfied s.flag f.cond = true →
    let d := readReg s f.rs2 + f.offset
    let e := Int.floor ((readReg s f.rs1 : ℚ) / (d : ℚ))
    ∃ t, exec (.div f) s = .next t ∧
      (∀ r : Reg, readReg t r = if r = zeroIndex then 0
        else if r = f.rt then (if d ≠ 0 ∧ fits s.config e then e else 0)
        else if r = pcIndex then pc s + 1 else readReg s r) ∧
      t.flag = (if d ≠ 0 ∧ fits s.config e then
        (if e < 0 then flagM else if e = 0 then flagZ else flagP) else flagV) ∧
      SameMemory s t ∧ SameControl s t ∧ SameEnvironment s t

/-- R113: what the four arithmetic instructions have in common, executed and skipped; no other instruction
writes the flag, and these make no data access. -/
def Obligations.ArithmeticInstructionsShareOneForm : Prop :=
  (∀ (op : Opcode) (f : Fields) (s : State),
    (isArithmetic op = true → dataAccess (Instr.make op f) s = .idle) ∧
    (isArithmetic op = false → ∀ t, exec (Instr.make op f) s = .next t → t.flag = s.flag)) ∧
  ∀ (op : Opcode) (f : Fields) (s : State), isArithmetic op = true →
    let answer := alu s.config op (readReg s f.rs1) (readReg s f.rs2 + f.offset)
    (s.flag &&& f.cond ≠ 0#4 →
      ∃ t, exec (Instr.make op f) s = .next t ∧
        (∀ r : Reg, readReg t r = if r = zeroIndex then 0 else if r = f.rt then answer.1
          else if r = pcIndex then pc s + 1 else readReg s r) ∧
        t.flag = answer.2 ∧ t.mem = s.mem ∧ SameControl s t ∧ SameEnvironment s t ∧
        ((t.flag = flagM ∧ answer.1 < 0) ∨ (t.flag = flagZ ∧ answer.1 = 0) ∨
          (t.flag = flagP ∧ 0 < answer.1) ∨ (t.flag = flagV ∧ answer.1 = 0))) ∧
    (s.flag &&& f.cond = 0#4 →
      ∃ t, exec (Instr.make op f) s = .next t ∧ pc t = pc s + 1 ∧ SameRegisters s t ∧
        t.flag = s.flag ∧ t.mem = s.mem ∧ SameControl s t ∧ SameEnvironment s t)

/-- R120: an executed LOAD from a valid address, for every operand form. -/
def Obligations.LoadCompletes : Prop :=
  ∀ (f : Fields) (s : State), satisfied s.flag f.cond = true →
    0 ≤ loadAddress f s → loadAddress f s < s.config.memSize →
    loadAddress f s = readReg s f.rs1 + readReg s f.rs2 + f.offset ∧
    ∃ t v, exec (.load f) s = .next t ∧ memRead s (loadAddress f s) = some v ∧
      (∀ r : Reg, readReg t r = if r = zeroIndex then 0 else if r = f.rt then v
        else if r = pcIndex then pc s + 1 else readReg s r) ∧
      t.flag = s.flag ∧ SameMemory s t ∧ SameControl s t ∧ SameEnvironment s t

/-- R121: an executed STORE to a valid address, for every operand form: the target register is read after
the advance, and one cell alone changes. -/
def Obligations.StoreCompletes : Prop :=
  ∀ (f : Fields) (s : State), s.mem.wf → satisfied s.flag f.cond = true →
    0 ≤ storeAddress f s → storeAddress f s < s.config.memSize →
    storeAddress f s = readReg s f.rs1 + readReg s f.rs2 + f.offset ∧
    ∃ t, exec (.store f) s = .next t ∧
      memRead t (storeAddress f s) = some (if f.rt = pcIndex then pc s + 1 else readReg s f.rt) ∧
      SameMemoryBut (storeAddress f s) s t ∧ pc t = pc s + 1 ∧ SameRegisters s t ∧
      t.flag = s.flag ∧ SameControl s t ∧ SameEnvironment s t

/-- R123: an executed HALT, whatever its unused fields hold. -/
def Obligations.HaltCompletes : Prop :=
  ∀ (f : Fields) (s : State), satisfied s.flag f.cond = true →
    ∃ t, exec (.halt f) s = .next t ∧ t.halted = true ∧ t.runState = .halted ∧ pc t = pc s + 1 ∧
      SameRegisters s t ∧ t.flag = s.flag ∧ SameMemory s t ∧ t.fault = s.fault ∧ SameEnvironment s t

/-- R103: a skipped instruction of any kind only advances the program counter, with no data access; its
event is published. -/
def Obligations.SkippedInstructionOnlyAdvances : Prop :=
  ∀ (s : State) (w : Int) (i : Instr), Fetches s w i → s.flag &&& i.fields.cond = 0#4 →
    dataPort s = .idle ∧ tracePort s = some { pc := pc s, word := w, instr := i } ∧
    ∃ t, step s = .next t ∧ pc t = pc s + 1 ∧ SameRegisters s t ∧ t.flag = s.flag ∧ t.mem = s.mem ∧
      t.config = s.config ∧ SameControl s t

/-- R137: a LOAD or STORE at an invalid address faults after the event and the advance, with nothing else
done; a skipped one does not. -/
def Obligations.InvalidDataAddressFaults : Prop :=
  ∀ (s : State) (w : Int) (i : Instr) (f : Fields), Fetches s w i → i = .load f ∨ i = .store f →
    let addr := readReg s f.rs1 + readReg s f.rs2 + f.offset
    tracePort s = some { pc := pc s, word := w, instr := i } ∧
    (satisfied s.flag f.cond = true → addr < 0 ∨ (s.config.memSize : Int) ≤ addr →
      ∃ t, step s = .next t ∧ t.runState = .faulted ∧
        t.fault = some { cause := if i = .load f then .loadAddress else .storeAddress,
                         info := addr, atPc := pc s } ∧
        pc t = pc s + 1 ∧ SameRegisters s t ∧ t.flag = s.flag ∧ SameMemory s t ∧ t.halted = s.halted ∧ t.config = s.config) ∧
    (satisfied s.flag f.cond = false → ∃ t, step s = .next t ∧ t.runState = .running ∧ t.fault = s.fault)

/-- R119: the address is the exact sum, never wrapped, and at a finite width lies in the range the rule
gives. -/
def Obligations.AddressIsExactAndBounded : Prop :=
  ∀ (f : Fields) (s : State) (n : Nat), Inv s → f.wellFormed = true → s.config.xlen = some n →
    loadAddress f s = readReg s f.rs1 + readReg s f.rs2 + f.offset ∧
    storeAddress f s = loadAddress f s ∧
    -(2 ^ n) - 512 ≤ loadAddress f s ∧ loadAddress f s ≤ 2 ^ n + 509

/-- R126: every instruction that does not write register 15 as its target leaves the program counter one
past its own address. -/
def Obligations.SequentialFlow : Prop :=
  ∀ (i : Instr) (s t : State), exec i s = .next t →
    (satisfied s.flag i.fields.cond = false ∨ i.fields.rt ≠ pcIndex ∨ i.op = .store ∨ i.op = .halt) →
    pc t = pc s + 1

/-- R108: which value of register 15 each read sees. -/
def Obligations.WhatReadsOfTheProgramCounterSee : Prop :=
  ∀ (f : Fields) (s : State),
    (f.rs1 = pcIndex → leftOperand f s = pc s) ∧
    (f.rs2 = pcIndex → rightOperand f s = pc s + f.offset) ∧
    (satisfied s.flag f.cond = true →
      (∀ t, f.rt = pcIndex → validAddress s.config (storeAddress f s) = true →
        exec (.store f) s = .next t → memRead t (storeAddress f s) = some (pc s + 1)) ∧
      (∀ t op, isArithmetic op = true → f.rt = pcIndex → exec (Instr.make op f) s = .next t →
        pc t = (alu s.config op (leftOperand f s) (rightOperand f s)).1) ∧
      (∀ t v, f.rt = pcIndex → memRead s (loadAddress f s) = some v → exec (.load f) s = .next t →
        pc t = v) ∧
      ∀ t, exec (.halt f) s = .next t → pc t = pc s + 1)

/-- R127 to R130: jumps. A relative ADD jumps relative to its own address and sets the flag by the
destination; a LOAD into register 15 jumps through memory and leaves the flag. -/
def Obligations.JumpsThroughRegisterFifteen : Prop :=
  ∀ (s : State) (cond : Mask) (k : Int), satisfied s.flag cond = true →
    (fits s.config (pc s + k) = true → ∀ i : Instr,
      i = .add { cond := cond, rt := pcIndex, rs1 := pcIndex, rs2 := zeroIndex, offset := k } ∨
      i = .add { cond := cond, rt := pcIndex, rs1 := zeroIndex, rs2 := pcIndex, offset := k } →
      ∃ t, exec i s = .next t ∧ pc t = pc s + k ∧ SameRegisters s t ∧
        (t.flag = flagP ↔ 0 < pc t) ∧ (t.flag = flagZ ↔ pc t = 0) ∧ (t.flag = flagM ↔ pc t < 0)) ∧
    (∀ (rs1 rs2 : Reg) (v : Int), memRead s (readReg s rs1 + readReg s rs2 + k) = some v →
      ∃ t, exec (.load { cond := cond, rt := pcIndex, rs1 := rs1, rs2 := rs2, offset := k }) s = .next t ∧
        pc t = v ∧ SameRegisters s t ∧ t.flag = s.flag)

/-- R131: the idioms, as assembled: compare, test, move, load constant. -/
def Obligations.IdiomsHaveTheirEffects : Prop :=
  ∀ (s : State) (a b d : Reg) (k : Int), satisfied s.flag always = true →
    (∃ i t, asmInstr (.three .sub 0 a b none none) = some i ∧ exec i s = .next t ∧ SameRegisters s t ∧
      (fits s.config (readReg s a - readReg s b) = true →
        (t.flag = flagM ↔ readReg s a < readReg s b) ∧ (t.flag = flagZ ↔ readReg s a = readReg s b) ∧
        (t.flag = flagP ↔ readReg s b < readReg s a)) ∧
      (fits s.config (readReg s a - readReg s b) = false → t.flag = flagV)) ∧
    (fits s.config (readReg s a) = true → ∃ i t, asmInstr (.three .add 0 a 0 none none) = some i ∧
      exec i s = .next t ∧ SameRegisters s t ∧ (t.flag = flagM ↔ readReg s a < 0) ∧
      (t.flag = flagZ ↔ readReg s a = 0) ∧ (t.flag = flagP ↔ 0 < readReg s a)) ∧
    (fits s.config (readReg s a) = true → ∃ i t, asmInstr (.three .add d a 0 none none) = some i ∧
      exec i s = .next t ∧ (d ≠ 0 → readReg t d = readReg s a) ∧ SameRegistersBut d s t ∧
      (t.flag = flagM ↔ readReg s a < 0) ∧ (t.flag = flagZ ↔ readReg s a = 0) ∧
      (t.flag = flagP ↔ 0 < readReg s a)) ∧
    (fits s.config k = true → ∃ i t, asmInstr (.three .add d 0 0 (some k) none) = some i ∧
      exec i s = .next t ∧ (d ≠ 0 → readReg t d = k) ∧ SameRegistersBut d s t ∧
      (t.flag = flagM ↔ k < 0) ∧ (t.flag = flagZ ↔ k = 0) ∧ (t.flag = flagP ↔ 0 < k))

/-- R122: a STORE, then a LOAD of the same address, gives back the stored register's value. -/
def Obligations.StoreThenLoadReturnsTheValue : Prop :=
  ∀ (s t : State) (f g : Fields), s.mem.wf → satisfied s.flag f.cond = true →
    satisfied s.flag g.cond = true → validAddress s.config (storeAddress f s) = true →
    exec (.store f) s = .next t → loadAddress g t = storeAddress f s →
    ∃ u, exec (.load g) t = .next u ∧ u.flag = s.flag ∧ u.halted = s.halted ∧
      (g.rt ≠ zeroIndex → readReg u g.rt = if f.rt = pcIndex then pc s + 1 else readReg s f.rt) ∧
      SameMemoryBut (storeAddress f s) s u

/-- R111, R112: what an instruction does depends on configuration, registers, flag and memory alone. -/
def Obligations.EffectDependsOnRegistersFlagAndMemory : Prop :=
  ∀ (i : Instr) (s s' t : State), s'.config = s.config → s'.regs = s.regs → s'.flag = s.flag →
    s'.mem = s.mem → exec i s = .next t →
    ∃ t', exec i s' = .next t' ∧ t'.regs = t.regs ∧ t'.flag = t.flag ∧ t'.mem = t.mem

/-! ## The step -/

/-- R98: a step runs the decoded instruction, on the state whose event has been published. -/
def Obligations.StepRunsTheDecodedInstruction : Prop :=
  ∀ (s : State) (w : Int) (i : Instr), Fetches s w i → step s = exec i (begun w i s)

/-- R135: `FetchAddressFault`: nothing of the step happens but the fault entry. -/
def Obligations.InvalidFetchAddressFaults : Prop :=
  ∀ s : State, StepsAt s → pc s < 0 ∨ (s.config.memSize : Int) ≤ pc s →
    tracePort s = none ∧ ∃ t, step s = .next t ∧ t.runState = .faulted ∧
      t.fault = some { cause := .fetchAddress, info := pc s, atPc := pc s } ∧
      pc t = pc s ∧ SameRegisters s t ∧ t.flag = s.flag ∧ t.mem = s.mem ∧ t.halted = s.halted ∧
      t.config = s.config

/-- R136: `DecodeFault`: nothing of the step happens beyond the fetch read but the fault entry. -/
def Obligations.MalformedWordLeavesTheStateAlone : Prop :=
  ∀ (s : State) (w : Int) (e : DecodeReject), StepsAt s → memRead s (pc s) = some w →
    decode w = .error e →
    tracePort s = none ∧ ∃ t, step s = .next t ∧ t.runState = .faulted ∧
      t.fault = some { cause := .decode, info := w, atPc := pc s } ∧
      pc t = pc s ∧ SameRegisters s t ∧ t.flag = s.flag ∧ t.mem = s.mem ∧ t.halted = s.halted ∧
      t.config = s.config

/-- R134: the four faults, their codes, and what the latch records of each. -/
def Obligations.FaultLatchRecordsTheCause : Prop :=
  causeCode .fetchAddress = 1 ∧ causeCode .decode = 2 ∧ causeCode .loadAddress = 3 ∧
  causeCode .storeAddress = 4 ∧
  ∀ (s : State) (c : FaultCause) (info : Int), FaultsAt s c info →
    ∃ t, step s = .next t ∧ t.runState = .faulted ∧
      t.fault = some { cause := c, info := info, atPc := pc s }

/-- R112: what a completed step may change, per instruction. -/
def Obligations.StepFrame : Prop :=
  ∀ (s t : State) (w : Int) (i : Instr), Fetches s w i → step s = .next t → t.runState ≠ .faulted →
    readReg t zeroIndex = 0 ∧ SameRegistersBut i.fields.rt s t ∧
    (isArithmetic i.op = false → i.op ≠ .load → SameRegisters s t) ∧
    (isArithmetic i.op = false → t.flag = s.flag) ∧
    (i.op ≠ .store → t.mem = s.mem) ∧
    (s.mem.wf → SameMemoryBut (storeAddress i.fields s) s t) ∧
    (i.op ≠ .halt → t.halted = s.halted ∧ t.runState = s.runState) ∧ t.fault = s.fault ∧
    t.config = s.config

/-- R30: everything that writes the flag, over all edges. -/
def Obligations.WritersOfTheFlag : Prop :=
  ∀ s t : State, step s = .next t →
    ((sample s).rst = true → t.flag = always) ∧
    (∀ op f, isArithmetic op = true → Executes s op f → t.flag = (aluOf op f s).2) ∧
    ((sample s).rst = false → (∀ op f, isArithmetic op = true → ¬ Executes s op f) → t.flag = s.flag)

/-- R32: everything that writes `halted`, over all edges. -/
def Obligations.WritersOfHalted : Prop :=
  ∀ s t : State, step s = .next t →
    ((sample s).rst = true → t.halted = false) ∧ (TakesRunCommand s → t.halted = false) ∧
    (∀ f, Executes s .halt f → t.halted = true) ∧
    ((sample s).rst = false → ¬ TakesRunCommand s → (∀ f, ¬ Executes s .halt f) → t.halted = s.halted)

/-- R33: the transitions of the run-state, over all edges. -/
def Obligations.RunStateTransitions : Prop :=
  ∀ s t : State, step s = .next t →
    ((sample s).rst = true → t.runState = .idle) ∧
    (TakesRunCommand s → t.runState = .running) ∧
    ((sample s).rst = false → s.runState ≠ .running → ¬ TakesRunCommand s → t.runState = s.runState) ∧
    ((sample s).rst = false → s.runState = .running →
      (t.runState = .halted ↔ ∃ f, Executes s .halt f) ∧
      (t.runState = .faulted ↔ ∃ c info, FaultsAt s c info) ∧
      ((∀ f, ¬ Executes s .halt f) → (∀ c info, ¬ FaultsAt s c info) → t.runState = .running))

/-- R35: everything that writes the fault latch, over all edges; no step finds it set. -/
def Obligations.WritersOfTheFaultLatch : Prop :=
  ∀ s t : State, step s = .next t →
    ((sample s).rst = true → t.fault = none) ∧ (TakesRunCommand s → t.fault = none) ∧
    (∀ c info, FaultsAt s c info → t.fault = some { cause := c, info := info, atPc := pc s }) ∧
    ((sample s).rst = false → ¬ TakesRunCommand s → (∀ c info, ¬ FaultsAt s c info) →
      t.fault = s.fault) ∧
    (Inv s → StepsAt s → s.fault = none)

/-- R101, R147, R148: the trace outputs show, before the edge and so beside the registers and the flag from
before the step, the instruction that the edge fetches and decodes, executed, skipped or faulting at its
data address, and nothing at any other edge; the edge leaves that event in the record of log entry 11. -/
def Obligations.TraceShowsEveryDecodedInstruction : Prop :=
  ∀ s t : State, step s = .next t →
    (∀ w i, Fetches s w i →
      (statusPorts s).traceValid = true ∧ (statusPorts s).tracePc = some (pc s) ∧
      (statusPorts s).traceWord = some w ∧ (statusPorts s).traceInstr = some i ∧
      t.trace = some { pc := pc s, word := w, instr := i }) ∧
    ((∀ w i, ¬ Fetches s w i) → (statusPorts s).traceValid = false ∧ t.trace = none) ∧
    (statusPorts s).flagO = s.flag ∧ ∀ r : Reg, (statusPorts s).regO[r.val]? = some (readReg s r)

/-- R59: a STORE is seen by the fetch of the very next step; the running step is not affected (R56). -/
def Obligations.NextFetchSeesTheStore : Prop :=
  ∀ (s t : State) (w : Int) (f : Fields), Fetches s w (.store f) →
    satisfied s.flag f.cond = true → step s = .next t → t.runState = .running →
    storeAddress f s = pc t → StepsAt t →
    let v := if f.rt = pcIndex then pc s + 1 else readReg s f.rt
    memRead t (pc t) = some v ∧ (∀ j, decode v = .ok j → step t = exec j (begun v j t)) ∧
      (∀ e, decode v = .error e → ∃ u, step t = .next u ∧
        u.fault = some { cause := .decode, info := v, atPc := pc t })

/-- R62: what the data port shows at an edge is what the edge does to the memory; the write enable is 0 but
for a STORE to a valid address (R40). That `dmem_wdata` has no value where nothing is stored, `dmem_rdata`
none at an invalid address and no output but the write enable one without an access, is the model's choice,
log entry 12. -/
def Obligations.DataPortCarriesTheStore : Prop :=
  ∀ s t : State, step s = .next t →
    (∀ f, Executes s .load f → (dataPort s).addr = some (loadAddress f s) ∧ (dataPort s).we = false) ∧
    (∀ f, Executes s .store f → (dataPort s).addr = some (storeAddress f s) ∧
      (dataPort s).we = validAddress s.config (storeAddress f s)) ∧
    ((∀ f, ¬ Executes s .load f ∧ ¬ Executes s .store f) → dataPort s = .idle) ∧
    (∀ a, (dataPort s).addr = some a →
      (dataPort s).err = some (!validAddress s.config a) ∧ (dataPort s).rdata = memRead s a) ∧
    ((dataPort s).we = true → (dataPort s).err = some false ∧
      ∃ a v, (dataPort s).addr = some a ∧ (dataPort s).wdata = some v ∧
        memWrite a v s = some { s with mem := t.mem }) ∧
    ((dataPort s).we = false → (dataPort s).wdata = none ∧ t.mem = s.mem)

/-- R40: every status and trace output shows the state. That `fault_info_o` and `fault_pc_o` have no value with
an empty latch, and the trace fields none with `trace_valid = 0`, is the model's choice, log entry 12;
`reg_o` and `flag_o` show the state while RUNNING too, as R147 says. -/
def Obligations.StatusPortsShowTheState : Prop :=
  (∀ s : State,
    (statusPorts s).haltedO = s.halted ∧ (statusPorts s).flagO = s.flag ∧
    (s.runState = .idle → (statusPorts s).stateO = 0#2) ∧
    (s.runState = .running → (statusPorts s).stateO = 1#2) ∧
    (s.runState = .halted → (statusPorts s).stateO = 2#2) ∧
    (s.runState = .faulted → (statusPorts s).stateO = 3#2) ∧
    (s.fault = none → (statusPorts s).faultCauseO = 0#3 ∧ (statusPorts s).faultInfoO = none ∧
      (statusPorts s).faultPcO = none) ∧
    (∀ r, s.fault = some r → (statusPorts s).faultCauseO.toNat = causeCode r.cause ∧
      (statusPorts s).faultInfoO = some r.info ∧ (statusPorts s).faultPcO = some r.atPc) ∧
    (statusPorts s).regO.length = 16 ∧
    (∀ r : Reg, (statusPorts s).regO[r.val]? = some (readReg s r)) ∧
    (∀ w i, Fetches s w i → (statusPorts s).traceValid = true ∧ (statusPorts s).tracePc = some (pc s) ∧
      (statusPorts s).traceWord = some w ∧ (statusPorts s).traceInstr = some i) ∧
    ((∀ w i, ¬ Fetches s w i) → (statusPorts s).traceValid = false ∧ (statusPorts s).tracePc = none ∧
      (statusPorts s).traceWord = none ∧ (statusPorts s).traceInstr = none)) ∧
  ∀ s : State, Inv s →
    ((statusPorts s).faultCauseO = 0#3 ↔ s.fault = none) ∧
    ((statusPorts s).haltedO = true ↔ (statusPorts s).stateO = 2#2) ∧
    ((statusPorts s).faultCauseO ≠ 0#3 ↔ (statusPorts s).stateO = 3#2)

/-! ## Reset, the run command and runs -/

/-- R41, R153: the reset values, in the state the model starts from and after every edge that samples
`rst`, in any run-state and whatever else is sampled; the memory keeps its contents. -/
def Obligations.ResetValues : Prop :=
  ((∀ r : Reg, readReg State.reset r = 0) ∧ State.reset.flag = 15#4 ∧ State.reset.halted = false ∧
    State.reset.runState = .idle ∧ State.reset.fault = none ∧
    (statusPorts State.reset).traceValid = false) ∧
  ∀ s : State, configWf s.config = true → (sample s).rst = true →
    ∃ t, step s = .next t ∧ (∀ r : Reg, readReg t r = 0) ∧ t.flag = 15#4 ∧ t.halted = false ∧
      t.runState = .idle ∧ t.fault = none ∧ (statusPorts t).traceValid = false ∧
      t.mem = s.mem ∧ t.config = s.config

/-- R156: the run command sets four things and keeps the rest; its address is not checked, and an invalid
one makes the first step fault. -/
def Obligations.RunCommandStartsARun : Prop :=
  defaultEntry = 0 ∧
  ∀ s : State, configWf s.config = true → TakesRunCommand s → fits s.config (sample s).runAddr = true →
    ∃ t, step s = .next t ∧ pc t = (sample s).runAddr ∧ t.halted = false ∧ t.fault = none ∧
      t.runState = .running ∧ SameRegisters s t ∧ t.flag = s.flag ∧ t.mem = s.mem ∧
      t.config = s.config ∧
      (validAddress s.config (pc t) = false → (sample t).rst = false →
        ∃ u, step t = .next u ∧ u.runState = .faulted ∧
          u.fault = some { cause := .fetchAddress, info := pc t, atPc := pc t })

/-- R159: while RUNNING, `run_start` and `run_addr` make no difference. -/
def Obligations.RunStartIsIgnoredWhileRunning : Prop :=
  ∀ (s : State) (p : Inputs) (rest : List Inputs) (start : Bool) (addr : Int), s.runState = .running →
    step { s with inputs := { p with runStart := start, runAddr := addr } :: rest } =
      step { s with inputs := p :: rest }

/-- The model's own choices (log entries 3 and 9): an excluded configuration and a `run_addr` that the port
cannot carry are refused by name. -/
def Obligations.RefusalsOfTheEdge : Prop :=
  (∀ s : State, configWf s.config = false → step s = .refused .configurationOutOfRange) ∧
  ∀ s : State, configWf s.config = true → TakesRunCommand s → fits s.config (sample s).runAddr = false →
    step s = .refused .runAddressOutOfRange

/-- R111: outside RUNNING nothing changes and no data access or event is made until a reset or a run command,
however many edges pass. Of the model's own fields (log entries 7 and 11) the record of the last event is
emptied and the samples are used up. -/
def Obligations.StoppedEngineIsQuiescent : Prop :=
  ∀ (s : State) (k : Nat), configWf s.config = true → s.runState ≠ .running →
    (∀ p ∈ s.inputs, p.rst = false ∧ p.runStart = false) →
    dataPort s = .idle ∧ tracePort s = none ∧
    edges (k + 1) s = some { s with trace := none, inputs := s.inputs.drop (k + 1) }

/-- R161: a single-stepped run goes through the states of the free run: pauses repeat a state, and with
every pause acknowledged the two keep pace. How the engine pauses is the model's choice, log entry 8. -/
def Obligations.SingleSteppedRunFollowsTheFreeRun : Prop :=
  ∀ (s t : State), (∀ p ∈ s.inputs, p.rst = false ∧ p.runStart = false) →
    edges s.inputs.length s = some t →
    (∃ k u, k ≤ s.inputs.length ∧ edges k { s with inputs := [] } = some u ∧
      architectural t = architectural u) ∧
    ((∀ p ∈ s.inputs, p.singleStep = true → p.stepAck = true) →
      ∃ u, edges s.inputs.length { s with inputs := [] } = some u ∧ architectural t = architectural u)

/-- R158: a run performs at least one step; one whose first instruction is an executed HALT performs
exactly one and ends one past it. -/
def Obligations.RunPerformsAtLeastOneStep : Prop :=
  (∀ (s u : State) (a : Int), Run s a u →
    ∃ t, step (runCommand a s) = .next t ∧ RunsTo t u) ∧
  ∀ (s : State) (a : Int) (f : Fields), Executes (runCommand a s) .halt f →
    ∃ u, step (runCommand a s) = .next u ∧ Ended u ∧ Run s a u ∧ u.runState = .halted ∧ pc u = a + 1

/-- R19, R160: a run from a state that meets the invariant ends well, or faulted with a record in the latch;
never both. -/
def Obligations.RunsEndWellOrFaulted : Prop :=
  ∀ (s u : State) (a : Int), Inv s → fits s.config a = true → Run s a u →
    Inv u ∧ (GoodEnd u ∨ (u.runState = .faulted ∧ u.halted = false ∧ ∃ r, u.fault = some r))

/-- The model's own `State.withFetchWord` (log entry 10): the coming edge fetches exactly the instruction
placed. -/
def Obligations.PlacedWordIsFetched : Prop :=
  ∀ (s : State) (w : Nat) (i : Instr), configWf s.config = true →
    decodeTableWord 32 w = some i → ∃ v, Fetches (s.withFetchWord 32 w) v i

/-! ## Invariants and the reference configuration -/

/-- R44 as a property of one step: every edge keeps the invariant. -/
def Obligations.EveryEdgeKeepsTheInvariant : Prop :=
  ∀ s t : State, Inv s → step s = .next t → Inv t

/-- The invariant holds right after reset; `MEM_SIZE` there is the model's choice, log entry 2, and its
cells hold free values, log entry 5. -/
def Obligations.ResetMeetsTheInvariant : Prop := Inv State.reset

/-- R44: the invariants of every reachable state, over every configuration, memory content and input. What is
reachable is read from R17 and R162 by inference, log entries 13 and 14. -/
def Obligations.ReachableStatesMeetTheInvariants : Prop :=
  ∀ s : State, Reachable s →
    readReg s zeroIndex = 0 ∧ (∀ r : Reg, fits s.config (readReg s r) = true) ∧
    (∀ a v, memRead s a = some v → fits s.config v = true) ∧
    (s.flag = always ∨ s.flag = flagM ∨ s.flag = flagZ ∨ s.flag = flagP ∨ s.flag = flagV) ∧
    (s.halted = true ↔ s.runState = .halted) ∧ (s.fault ≠ none ↔ s.runState = .faulted)

/-- R27: the advance never leaves the register's range, since it follows a successful fetch. -/
def Obligations.AdvanceNeverOverflows : Prop :=
  ∀ (s t : State) (w : Int) (i : Instr), Inv s → Fetches s w i → step s = .next t →
    fits s.config (pc s + 1) = true ∧ fits t.config (pc t) = true

/-- R9: as long as no edge sets V but by a zero divisor, the machine of finite width and the reference
configuration of unbounded width, from the same memory, go through the same states. -/
def Obligations.FiniteWidthFollowsTheReference : Prop :=
  ∀ (k : Nat) (s s' t : State), ReferenceOf s s' → edges k s = some t →
    (∀ j u, j < k → edges j s = some u → VOnlyByZeroDivisor u) →
    ∃ t', edges k s' = some t' ∧ ReferenceOf t t'
end

