-- ==== Sys2Proof/Laws/State.lean ====
section
/-! SUPPORT. One lemma per field per update, and what each update does to the registers. -/

namespace Sys2Proof.Machine

/-! `writeReg` -/
@[simp] theorem writeReg_config (r : Reg) (v : Int) (s : State) : (writeReg r v s).config = s.config := by
  unfold writeReg; split <;> rfl
@[simp] theorem writeReg_flag (r : Reg) (v : Int) (s : State) : (writeReg r v s).flag = s.flag := by
  unfold writeReg; split <;> rfl
@[simp] theorem writeReg_halted (r : Reg) (v : Int) (s : State) : (writeReg r v s).halted = s.halted := by
  unfold writeReg; split <;> rfl
@[simp] theorem writeReg_runState (r : Reg) (v : Int) (s : State) : (writeReg r v s).runState = s.runState := by
  unfold writeReg; split <;> rfl
@[simp] theorem writeReg_fault (r : Reg) (v : Int) (s : State) : (writeReg r v s).fault = s.fault := by
  unfold writeReg; split <;> rfl
@[simp] theorem writeReg_mem (r : Reg) (v : Int) (s : State) : (writeReg r v s).mem = s.mem := by
  unfold writeReg; split <;> rfl
@[simp] theorem writeReg_trace (r : Reg) (v : Int) (s : State) : (writeReg r v s).trace = s.trace := by
  unfold writeReg; split <;> rfl
@[simp] theorem writeReg_stepped (r : Reg) (v : Int) (s : State) : (writeReg r v s).stepped = s.stepped := by
  unfold writeReg; split <;> rfl
@[simp] theorem writeReg_inputs (r : Reg) (v : Int) (s : State) : (writeReg r v s).inputs = s.inputs := by
  unfold writeReg; split <;> rfl

/-! `advance` -/
@[simp] theorem advance_config (s : State) : (advance s).config = s.config := writeReg_config _ _ s
@[simp] theorem advance_flag (s : State) : (advance s).flag = s.flag := writeReg_flag _ _ s
@[simp] theorem advance_halted (s : State) : (advance s).halted = s.halted := writeReg_halted _ _ s
@[simp] theorem advance_runState (s : State) : (advance s).runState = s.runState := writeReg_runState _ _ s
@[simp] theorem advance_fault (s : State) : (advance s).fault = s.fault := writeReg_fault _ _ s
@[simp] theorem advance_mem (s : State) : (advance s).mem = s.mem := writeReg_mem _ _ s
@[simp] theorem advance_trace (s : State) : (advance s).trace = s.trace := writeReg_trace _ _ s
@[simp] theorem advance_stepped (s : State) : (advance s).stepped = s.stepped := writeReg_stepped _ _ s
@[simp] theorem advance_inputs (s : State) : (advance s).inputs = s.inputs := writeReg_inputs _ _ s

/-! `setFlag` -/
@[simp] theorem setFlag_config (v : Mask) (s : State) : (setFlag v s).config = s.config := rfl
@[simp] theorem setFlag_regs (v : Mask) (s : State) : (setFlag v s).regs = s.regs := rfl
@[simp] theorem setFlag_flag (v : Mask) (s : State) : (setFlag v s).flag = v := rfl
@[simp] theorem setFlag_halted (v : Mask) (s : State) : (setFlag v s).halted = s.halted := rfl
@[simp] theorem setFlag_runState (v : Mask) (s : State) : (setFlag v s).runState = s.runState := rfl
@[simp] theorem setFlag_fault (v : Mask) (s : State) : (setFlag v s).fault = s.fault := rfl
@[simp] theorem setFlag_mem (v : Mask) (s : State) : (setFlag v s).mem = s.mem := rfl
@[simp] theorem setFlag_trace (v : Mask) (s : State) : (setFlag v s).trace = s.trace := rfl
@[simp] theorem setFlag_stepped (v : Mask) (s : State) : (setFlag v s).stepped = s.stepped := rfl
@[simp] theorem setFlag_inputs (v : Mask) (s : State) : (setFlag v s).inputs = s.inputs := rfl

/-! `raise` -/
@[simp] theorem raise_config (c : FaultCause) (i a : Int) (s : State) : (raise c i a s).config = s.config := rfl
@[simp] theorem raise_regs (c : FaultCause) (i a : Int) (s : State) : (raise c i a s).regs = s.regs := rfl
@[simp] theorem raise_flag (c : FaultCause) (i a : Int) (s : State) : (raise c i a s).flag = s.flag := rfl
@[simp] theorem raise_halted (c : FaultCause) (i a : Int) (s : State) : (raise c i a s).halted = s.halted := rfl
@[simp] theorem raise_runState (c : FaultCause) (i a : Int) (s : State) : (raise c i a s).runState = .faulted := rfl
@[simp] theorem raise_fault (c : FaultCause) (i a : Int) (s : State) : (raise c i a s).fault = some { cause := c, info := i, atPc := a } := rfl
@[simp] theorem raise_mem (c : FaultCause) (i a : Int) (s : State) : (raise c i a s).mem = s.mem := rfl
@[simp] theorem raise_trace (c : FaultCause) (i a : Int) (s : State) : (raise c i a s).trace = s.trace := rfl
@[simp] theorem raise_stepped (c : FaultCause) (i a : Int) (s : State) : (raise c i a s).stepped = s.stepped := rfl
@[simp] theorem raise_inputs (c : FaultCause) (i a : Int) (s : State) : (raise c i a s).inputs = s.inputs := rfl

/-! `publish` -/
@[simp] theorem publish_config (e : TraceEvent) (s : State) : (publish e s).config = s.config := rfl
@[simp] theorem publish_regs (e : TraceEvent) (s : State) : (publish e s).regs = s.regs := rfl
@[simp] theorem publish_flag (e : TraceEvent) (s : State) : (publish e s).flag = s.flag := rfl
@[simp] theorem publish_halted (e : TraceEvent) (s : State) : (publish e s).halted = s.halted := rfl
@[simp] theorem publish_runState (e : TraceEvent) (s : State) : (publish e s).runState = s.runState := rfl
@[simp] theorem publish_fault (e : TraceEvent) (s : State) : (publish e s).fault = s.fault := rfl
@[simp] theorem publish_mem (e : TraceEvent) (s : State) : (publish e s).mem = s.mem := rfl
@[simp] theorem publish_trace (e : TraceEvent) (s : State) : (publish e s).trace = some e := rfl
@[simp] theorem publish_stepped (e : TraceEvent) (s : State) : (publish e s).stepped = s.stepped := rfl
@[simp] theorem publish_inputs (e : TraceEvent) (s : State) : (publish e s).inputs = s.inputs := rfl

/-! `haltEffect` -/
@[simp] theorem haltEffect_config (s : State) : (haltEffect s).config = s.config := advance_config s
@[simp] theorem haltEffect_flag (s : State) : (haltEffect s).flag = s.flag := advance_flag s
@[simp] theorem haltEffect_halted (s : State) : (haltEffect s).halted = true := rfl
@[simp] theorem haltEffect_runState (s : State) : (haltEffect s).runState = .halted := rfl
@[simp] theorem haltEffect_fault (s : State) : (haltEffect s).fault = s.fault := advance_fault s
@[simp] theorem haltEffect_mem (s : State) : (haltEffect s).mem = s.mem := advance_mem s
@[simp] theorem haltEffect_trace (s : State) : (haltEffect s).trace = s.trace := advance_trace s
@[simp] theorem haltEffect_stepped (s : State) : (haltEffect s).stepped = s.stepped := advance_stepped s
@[simp] theorem haltEffect_inputs (s : State) : (haltEffect s).inputs = s.inputs := advance_inputs s

/-! `hardwareReset` -/
@[simp] theorem hardwareReset_config (s : State) : (hardwareReset s).config = s.config := rfl
@[simp] theorem hardwareReset_regs (s : State) : (hardwareReset s).regs = Vector.replicate 15 0 := rfl
@[simp] theorem hardwareReset_flag (s : State) : (hardwareReset s).flag = always := rfl
@[simp] theorem hardwareReset_halted (s : State) : (hardwareReset s).halted = false := rfl
@[simp] theorem hardwareReset_runState (s : State) : (hardwareReset s).runState = .idle := rfl
@[simp] theorem hardwareReset_fault (s : State) : (hardwareReset s).fault = none := rfl
@[simp] theorem hardwareReset_mem (s : State) : (hardwareReset s).mem = s.mem := rfl
@[simp] theorem hardwareReset_trace (s : State) : (hardwareReset s).trace = none := rfl
@[simp] theorem hardwareReset_stepped (s : State) : (hardwareReset s).stepped = false := rfl
@[simp] theorem hardwareReset_inputs (s : State) : (hardwareReset s).inputs = s.inputs := rfl

/-! `runCommand` -/
@[simp] theorem runCommand_config (a : Int) (s : State) : (runCommand a s).config = s.config := writeReg_config _ _ s
@[simp] theorem runCommand_flag (a : Int) (s : State) : (runCommand a s).flag = s.flag := writeReg_flag _ _ s
@[simp] theorem runCommand_halted (a : Int) (s : State) : (runCommand a s).halted = false := rfl
@[simp] theorem runCommand_runState (a : Int) (s : State) : (runCommand a s).runState = .running := rfl
@[simp] theorem runCommand_fault (a : Int) (s : State) : (runCommand a s).fault = none := rfl
@[simp] theorem runCommand_mem (a : Int) (s : State) : (runCommand a s).mem = s.mem := writeReg_mem _ _ s
@[simp] theorem runCommand_trace (a : Int) (s : State) : (runCommand a s).trace = s.trace := writeReg_trace _ _ s
@[simp] theorem runCommand_stepped (a : Int) (s : State) : (runCommand a s).stepped = false := rfl
@[simp] theorem runCommand_inputs (a : Int) (s : State) : (runCommand a s).inputs = s.inputs := writeReg_inputs _ _ s

/-! `beginEdge` -/
@[simp] theorem beginEdge_config (s : State) : (beginEdge s).config = s.config := rfl
@[simp] theorem beginEdge_regs (s : State) : (beginEdge s).regs = s.regs := rfl
@[simp] theorem beginEdge_flag (s : State) : (beginEdge s).flag = s.flag := rfl
@[simp] theorem beginEdge_halted (s : State) : (beginEdge s).halted = s.halted := rfl
@[simp] theorem beginEdge_runState (s : State) : (beginEdge s).runState = s.runState := rfl
@[simp] theorem beginEdge_fault (s : State) : (beginEdge s).fault = s.fault := rfl
@[simp] theorem beginEdge_mem (s : State) : (beginEdge s).mem = s.mem := rfl
@[simp] theorem beginEdge_trace (s : State) : (beginEdge s).trace = none := rfl
@[simp] theorem beginEdge_stepped (s : State) : (beginEdge s).stepped = s.stepped := rfl
@[simp] theorem beginEdge_inputs (s : State) : (beginEdge s).inputs = s.inputs.tail := rfl

/-! `begun` -/
@[simp] theorem begun_config (w : Int) (i : Instr) (s : State) : (begun w i s).config = s.config := rfl
@[simp] theorem begun_regs (w : Int) (i : Instr) (s : State) : (begun w i s).regs = s.regs := rfl
@[simp] theorem begun_flag (w : Int) (i : Instr) (s : State) : (begun w i s).flag = s.flag := rfl
@[simp] theorem begun_halted (w : Int) (i : Instr) (s : State) : (begun w i s).halted = s.halted := rfl
@[simp] theorem begun_runState (w : Int) (i : Instr) (s : State) : (begun w i s).runState = s.runState := rfl
@[simp] theorem begun_fault (w : Int) (i : Instr) (s : State) : (begun w i s).fault = s.fault := rfl
@[simp] theorem begun_mem (w : Int) (i : Instr) (s : State) : (begun w i s).mem = s.mem := rfl
@[simp] theorem begun_trace (w : Int) (i : Instr) (s : State) : (begun w i s).trace = some { pc := pc s, word := w, instr := i } := rfl
@[simp] theorem begun_stepped (w : Int) (i : Instr) (s : State) : (begun w i s).stepped = true := rfl
@[simp] theorem begun_inputs (w : Int) (i : Instr) (s : State) : (begun w i s).inputs = s.inputs.tail := rfl

/-! `begunSilently` -/
@[simp] theorem begunSilently_config (s : State) : (begunSilently s).config = s.config := rfl
@[simp] theorem begunSilently_regs (s : State) : (begunSilently s).regs = s.regs := rfl
@[simp] theorem begunSilently_flag (s : State) : (begunSilently s).flag = s.flag := rfl
@[simp] theorem begunSilently_halted (s : State) : (begunSilently s).halted = s.halted := rfl
@[simp] theorem begunSilently_runState (s : State) : (begunSilently s).runState = s.runState := rfl
@[simp] theorem begunSilently_fault (s : State) : (begunSilently s).fault = s.fault := rfl
@[simp] theorem begunSilently_mem (s : State) : (begunSilently s).mem = s.mem := rfl
@[simp] theorem begunSilently_trace (s : State) : (begunSilently s).trace = none := rfl
@[simp] theorem begunSilently_stepped (s : State) : (begunSilently s).stepped = true := rfl
@[simp] theorem begunSilently_inputs (s : State) : (begunSilently s).inputs = s.inputs.tail := rfl

/-! The registers -/

/-- Two states with the same register cells read the same. -/
theorem readReg_congr {s t : State} (h : t.regs = s.regs) (r : Reg) : readReg t r = readReg s r := by
  unfold readReg
  split <;> simp [h]

@[simp] theorem readReg_zero (s : State) : readReg s zeroIndex = 0 := rfl

@[simp] theorem readReg_index_zero (s : State) : readReg s 0 = 0 := rfl

/-- A write to register 0 changes nothing (R22). -/
@[simp] theorem writeReg_zero (v : Int) (s : State) : writeReg zeroIndex v s = s := rfl

/-- Reading after a write (R12): the written value at its own index, unless that is register 0. -/
theorem readReg_writeReg (r q : Reg) (v : Int) (s : State) :
    readReg (writeReg q v s) r = if r = zeroIndex then 0 else if r = q then v else readReg s r := by
  by_cases hr : r.val = 0
  · have h0 : r = zeroIndex := Fin.ext hr
    rw [if_pos h0, h0, readReg_zero]
  · have h0 : r ≠ zeroIndex := fun e => hr (congrArg Fin.val e)
    rw [if_neg h0]
    by_cases hq : q.val = 0
    · have hne : r ≠ q := fun e => hr (e ▸ hq)
      simp [readReg, writeReg, hr, hq, hne]
    · by_cases hrq : r = q
      · subst hrq
        simp [readReg, writeReg, hr]
      · have hv : q.val - 1 ≠ r.val - 1 := by
          intro e
          exact hrq (Fin.ext (by omega))
        simp [readReg, writeReg, hr, hq, hrq, hv]

theorem readReg_writeReg_same {r : Reg} (h : r ≠ zeroIndex) (v : Int) (s : State) :
    readReg (writeReg r v s) r = v := by
  rw [readReg_writeReg, if_neg h, if_pos rfl]

theorem readReg_writeReg_other {r q : Reg} (h : r ≠ q) (v : Int) (s : State) :
    readReg (writeReg q v s) r = readReg s r := by
  rw [readReg_writeReg, if_neg h]
  split
  · next e => rw [e, readReg_zero]
  · rfl

theorem pcIndex_ne_zero : pcIndex ≠ zeroIndex := by decide

@[simp] theorem pc_writeReg_pcIndex (v : Int) (s : State) : pc (writeReg pcIndex v s) = v :=
  readReg_writeReg_same pcIndex_ne_zero v s

theorem pc_writeReg_other {q : Reg} (h : q ≠ pcIndex) (v : Int) (s : State) :
    pc (writeReg q v s) = pc s := readReg_writeReg_other (Ne.symm h) v s

@[simp] theorem pc_advance (s : State) : pc (advance s) = pc s + 1 := pc_writeReg_pcIndex _ s

theorem readReg_advance (r : Reg) (s : State) :
    readReg (advance s) r = if r = pcIndex then pc s + 1 else readReg s r := by
  split
  · next e => rw [e]; exact pc_advance s
  · next e => exact readReg_writeReg_other e _ s

@[simp] theorem readReg_setFlag (v : Mask) (s : State) (r : Reg) :
    readReg (setFlag v s) r = readReg s r := rfl

@[simp] theorem readReg_raise (c : FaultCause) (i a : Int) (s : State) (r : Reg) :
    readReg (raise c i a s) r = readReg s r := rfl

@[simp] theorem readReg_publish (e : TraceEvent) (s : State) (r : Reg) :
    readReg (publish e s) r = readReg s r := rfl

@[simp] theorem readReg_haltEffect (s : State) (r : Reg) :
    readReg (haltEffect s) r = readReg (advance s) r := rfl

@[simp] theorem readReg_beginEdge (s : State) (r : Reg) :
    readReg (beginEdge s) r = readReg s r := rfl

@[simp] theorem readReg_begun (w : Int) (i : Instr) (s : State) (r : Reg) :
    readReg (begun w i s) r = readReg s r := rfl

@[simp] theorem readReg_begunSilently (s : State) (r : Reg) :
    readReg (begunSilently s) r = readReg s r := rfl

@[simp] theorem pc_setFlag (v : Mask) (s : State) : pc (setFlag v s) = pc s := rfl

@[simp] theorem pc_raise (c : FaultCause) (i a : Int) (s : State) : pc (raise c i a s) = pc s := rfl

@[simp] theorem pc_publish (e : TraceEvent) (s : State) : pc (publish e s) = pc s := rfl

@[simp] theorem pc_beginEdge (s : State) : pc (beginEdge s) = pc s := rfl

@[simp] theorem pc_begun (w : Int) (i : Instr) (s : State) : pc (begun w i s) = pc s := rfl

@[simp] theorem pc_begunSilently (s : State) : pc (begunSilently s) = pc s := rfl

@[simp] theorem pc_haltEffect (s : State) : pc (haltEffect s) = pc s + 1 := pc_advance s

theorem readReg_runCommand (a : Int) (s : State) (r : Reg) :
    readReg (runCommand a s) r = if r = pcIndex then a else readReg s r := by
  have h : readReg (runCommand a s) r = readReg (writeReg pcIndex a s) r := rfl
  rw [h]
  split
  · next e => rw [e]; exact pc_writeReg_pcIndex a s
  · next e => exact readReg_writeReg_other e a s

@[simp] theorem pc_runCommand (a : Int) (s : State) : pc (runCommand a s) = a :=
  pc_writeReg_pcIndex a s

/-- Every register reads 0 after hardware reset (R41). -/
@[simp] theorem readReg_hardwareReset (s : State) (r : Reg) : readReg (hardwareReset s) r = 0 := by
  unfold readReg
  split
  · rfl
  · simp [hardwareReset]

end Sys2Proof.Machine
end

