-- ==== Sys2Proof/Laws/Memory.lean ====
section
/-! SUPPORT. The memory: read after write, and that every memory operation keeps the canonical form. -/

namespace Sys2Proof.Machine

/-- In a canonical memory every entry after the first has a greater address. -/
theorem Memory.wf_cons {k : Nat} {x : Int} {m : Memory} :
    Memory.wf ((k, x) :: m) ↔ (∀ e ∈ m, k < e.1) ∧ Memory.wf m :=
  List.pairwise_cons

/-- What the memory lists for an address is one of its entries. -/
theorem mem_of_lookup {m : Memory} {a : Nat} {v : Int} (h : lookup m a = some v) : (a, v) ∈ m := by
  induction m with
  | nil => cases h
  | cons c rest ih =>
    obtain ⟨k, x⟩ := c
    rw [lookup] at h
    split at h
    · next ha => cases h; rw [ha]; exact List.mem_cons_self
    · split at h
      · cases h
      · exact List.mem_cons_of_mem _ (ih h)

/-- An entry of `store m a v` is an entry of `m` or the new cell. -/
theorem mem_store {m : Memory} {a : Nat} {v : Int} {e : Nat × Int} (h : e ∈ store m a v) :
    e ∈ m ∨ e = (a, v) := by
  induction m with
  | nil => exact .inr (List.mem_singleton.1 h)
  | cons c rest ih =>
    obtain ⟨k, x⟩ := c
    rw [store] at h
    split at h
    · exact (List.mem_cons.1 h).symm
    · split at h
      · exact (List.mem_cons.1 h).symm.imp (List.mem_cons_of_mem _) id
      · rcases List.mem_cons.1 h with h | h
        · exact .inl (h ▸ List.mem_cons_self)
        · exact (ih h).imp (List.mem_cons_of_mem _) id

/-- A store keeps the canonical form. -/
theorem store_wf {m : Memory} (h : m.wf) (a : Nat) (v : Int) : (store m a v).wf := by
  induction m with
  | nil => exact List.pairwise_singleton _ _
  | cons c rest ih =>
    obtain ⟨k, x⟩ := c
    obtain ⟨hk, hr⟩ := Memory.wf_cons.1 h
    rw [store]
    split
    · next hak =>
      refine Memory.wf_cons.2 ⟨fun e he => ?_, h⟩
      rcases List.mem_cons.1 he with he | he
      · rw [he]; exact hak
      · exact lt_trans hak (hk e he)
    · split
      · next heq => exact Memory.wf_cons.2 ⟨fun e he => heq ▸ hk e he, hr⟩
      · next hne =>
        refine Memory.wf_cons.2 ⟨fun e he => ?_, ih hr⟩
        rcases mem_store he with he | he
        · exact hk e he
        · rw [he]; show k < a; omega

/-- The written cell is listed with the value written. -/
theorem lookup_store_same (m : Memory) (a : Nat) (v : Int) : lookup (store m a v) a = some v := by
  induction m with
  | nil => simp [store, lookup]
  | cons c rest ih =>
    obtain ⟨k, x⟩ := c
    rw [store]
    split
    · simp [lookup]
    · next hak =>
      split
      · simp [lookup]
      · next hne => simp [lookup, hak, hne, ih]

/-- Every other cell is listed as before. -/
theorem lookup_store_other {m : Memory} (h : m.wf) {a b : Nat} (hab : b ≠ a) (v : Int) :
    lookup (store m a v) b = lookup m b := by
  induction m with
  | nil => simp [store, lookup, hab]
  | cons c rest ih =>
    obtain ⟨k, x⟩ := c
    obtain ⟨hk, hr⟩ := Memory.wf_cons.1 h
    rw [store]
    split
    · next hak =>
      by_cases hba : b < a
      · have hbk : b < k := by omega
        simp [lookup, hab, hba, hbk, Nat.ne_of_lt hbk]
      · conv => lhs; rw [lookup, if_neg hab, if_neg hba]
    · split
      · next heq => subst heq; simp [lookup, hab]
      · simp [lookup, ih hr]

/-- A store of a value that fits, at a valid address, keeps the memory's invariant. -/
theorem store_memoryOk {c : Config} {m : Memory} (h : MemoryOk c m) {a : Nat} (ha : a < c.memSize)
    {v : Int} (hv : fits c v = true) : MemoryOk c (store m a v) where
  canonical := store_wf h.canonical a v
  inRange := fun e he => by
    rcases mem_store he with he | he
    · exact h.inRange e he
    · rw [he]; exact ha
  valuesFit := fun e he => by
    rcases mem_store he with he | he
    · exact h.valuesFit e he
    · rw [he]; exact hv

/-- The valid addresses (R47). -/
theorem validAddress_iff {c : Config} {a : Int} :
    validAddress c a = true ↔ 0 ≤ a ∧ a < (c.memSize : Int) := by
  simp [validAddress]

/-- 0 fits every width. -/
theorem fits_zero (c : Config) : fits c 0 = true := by
  obtain ⟨_ | n, m⟩ := c
  · rfl
  · have h : 0 < 2 ^ (n - 1) := Nat.two_pow_pos _
    simp only [fits, Bool.and_eq_true, decide_eq_true_eq]
    generalize 2 ^ (n - 1) = b at h
    omega

/-- The free initial value of a cell fits every width (R46). -/
theorem fits_initialCell (c : Config) (a : Nat) : fits c (initialCell c a) = true := by
  obtain ⟨_ | n, m⟩ := c
  · rfl
  · have h : 0 < 2 ^ n := Nat.two_pow_pos n
    have hw : 2 ^ n ≤ 2 * 2 ^ (n - 1) := by
      cases n with
      | zero => decide
      | succ k => rw [Nat.add_sub_cancel, Nat.pow_succ]; omega
    have hlo := Int.le_bmod (x := Config.memInit a) h
    have hhi := Int.bmod_lt (x := Config.memInit a) h
    have hb : -((2 ^ (n - 1) : Nat) : Int) ≤ Int.bmod (Config.memInit a) (2 ^ n) ∧
        Int.bmod (Config.memInit a) (2 ^ n) ≤ ((2 ^ (n - 1) : Nat) : Int) - 1 := by
      generalize 2 ^ (n - 1) = q at hw
      generalize 2 ^ n = p at h hw hlo hhi
      omega
    exact Bool.and_eq_true_iff.2 ⟨decide_eq_true hb.1, decide_eq_true hb.2⟩

/-- What the cells of a memory that meets its invariant read as fits. -/
theorem fits_cellValue {s : State} (h : ∀ e ∈ s.mem, fits s.config e.2 = true) (a : Nat) :
    fits s.config (cellValue s a) = true := by
  unfold cellValue
  cases hl : lookup s.mem a with
  | none => exact fits_initialCell s.config a
  | some v => exact h (a, v) (mem_of_lookup hl)

theorem memRead_of_valid {s : State} {a : Int} (h : validAddress s.config a = true) :
    memRead s a = some (cellValue s a.toNat) := by simp [memRead, h]

theorem memRead_of_invalid {s : State} {a : Int} (h : validAddress s.config a = false) :
    memRead s a = none := by simp [memRead, h]

/-- Reading depends on the configuration and the memory only. -/
theorem memRead_congr {s t : State} (hc : t.config = s.config) (hm : t.mem = s.mem) (a : Int) :
    memRead t a = memRead s a := by simp [memRead, cellValue, hc, hm]

/-- A completed write, said once: the address is valid and the memory alone changes. -/
theorem memWrite_eq_some {a v : Int} {s t : State} :
    memWrite a v s = some t ↔
      validAddress s.config a = true ∧ t = { s with mem := store s.mem a.toNat v } := by
  unfold memWrite
  split
  · next ha => exact Iff.intro (fun h => And.intro ha (Option.some.inj h).symm) (fun h => congrArg some h.2.symm)
  · next ha => exact Iff.intro (fun h => by cases h) (fun h => absurd h.1 ha)

theorem memWrite_eq_none {a v : Int} {s : State} :
    memWrite a v s = none ↔ validAddress s.config a = false := by
  unfold memWrite
  split <;> simp_all

/-- After a completed write the written address reads as the value (R13). -/
theorem memRead_memWrite_same {a v : Int} {s t : State} (h : memWrite a v s = some t) :
    memRead t a = some v := by
  obtain ⟨ha, rfl⟩ := memWrite_eq_some.1 h
  rw [memRead_of_valid (by exact ha), cellValue, lookup_store_same]
  rfl

/-- After a completed write every other address reads as before (R13). -/
theorem memRead_memWrite_other {a b v : Int} {s t : State} (hm : s.mem.wf)
    (h : memWrite a v s = some t) (hab : b ≠ a) : memRead t b = memRead s b := by
  obtain ⟨ha, rfl⟩ := memWrite_eq_some.1 h
  have ha' := validAddress_iff.1 ha
  by_cases hb : validAddress s.config b = true
  · have hb' := validAddress_iff.1 hb
    have hne : b.toNat ≠ a.toNat := fun e => hab (by omega)
    rw [memRead_of_valid (by exact hb), memRead_of_valid hb, cellValue, cellValue,
      lookup_store_other hm hne]
  · have hb' : validAddress s.config b = false := by simpa using hb
    rw [memRead_of_invalid (by exact hb'), memRead_of_invalid hb']

end Sys2Proof.Machine
end

