-- ==== Sys2Proof/Laws/Alu.lean ====
section
/-! SUPPORT. What the range test, the flag derivation and the ALU can answer. -/

namespace Sys2Proof.Machine

/-- The range test at a finite width (R9). -/
theorem fits_width {n m : Nat} {v : Int} :
    fits { xlen := some n, memSize := m } v = true ↔
      -((2 ^ (n - 1) : Nat) : Int) ≤ v ∧ v ≤ ((2 ^ (n - 1) : Nat) : Int) - 1 := by
  simp [fits]

/-- With `XLEN` unbounded every integer fits (R9). -/
@[simp] theorem fits_unbounded (m : Nat) (v : Int) :
    fits { xlen := none, memSize := m } v = true := rfl

/-- The sign flag is exactly one of M, Z and P, by the sign (R91). -/
theorem signFlag_cases (e : Int) :
    (e < 0 ∧ signFlag e = flagM) ∨ (e = 0 ∧ signFlag e = flagZ) ∨ (0 < e ∧ signFlag e = flagP) := by
  unfold signFlag
  split
  · exact .inl ⟨‹_›, rfl⟩
  · split
    · exact .inr (.inl ⟨‹_›, rfl⟩)
    · exact .inr (.inr ⟨by omega, rfl⟩)

/-- All the ALU can answer (R83): `(0, V)` on an arithmetic fault, else the exact result and its sign. -/
theorem alu_cases (c : Config) (op : Opcode) (l r : Int) :
    (arithmeticFault c op l r = true ∧ alu c op l r = (0, flagV)) ∨
      (arithmeticFault c op l r = false ∧
        alu c op l r = (exactResult op l r, signFlag (exactResult op l r))) := by
  unfold alu
  cases arithmeticFault c op l r <;> simp

/-- The operations that are no arithmetic have no arithmetic fault (R89, R90). -/
theorem alu_of_not_arithmetic {op : Opcode} (h : isArithmetic op = false) (c : Config) (l r : Int) :
    alu c op l r = (exactResult op l r, signFlag (exactResult op l r)) := by
  cases op <;> simp_all [alu, arithmeticFault, isArithmetic]

/-- What an arithmetic operation answers always fits (R118 (g)). -/
theorem fits_alu {op : Opcode} (h : isArithmetic op = true) (c : Config) (l r : Int) :
    fits c (alu c op l r).1 = true := by
  rcases alu_cases c op l r with ⟨-, e⟩ | ⟨hf, e⟩
  · rw [e]; exact fits_zero c
  · rw [e]
    simp only [arithmeticFault, h, Bool.true_and, Bool.or_eq_false_iff, Bool.not_eq_false'] at hf
    exact hf.2

/-- The flag an operation derives is one of M, Z, P, V (R91). -/
theorem alu_flag_mem (c : Config) (op : Opcode) (l r : Int) :
    (alu c op l r).2 ∈ resultFlags := by
  rcases alu_cases c op l r with ⟨-, e⟩ | ⟨-, e⟩
  · rw [e]; decide
  · rw [e]
    show signFlag _ ∈ resultFlags
    rcases signFlag_cases (exactResult op l r) with ⟨-, h⟩ | ⟨-, h⟩ | ⟨-, h⟩ <;> rw [h] <;> decide

/-- The address of a LOAD is the exact sum (R119). -/
theorem loadAddress_eq (f : Fields) (s : State) :
    loadAddress f s = readReg s f.rs1 + (readReg s f.rs2 + f.offset) := by
  rw [loadAddress, aluOf, alu_of_not_arithmetic rfl]
  rfl

/-- The address of a STORE is the exact sum (R119). -/
theorem storeAddress_eq (f : Fields) (s : State) :
    storeAddress f s = readReg s f.rs1 + (readReg s f.rs2 + f.offset) := by
  rw [storeAddress, aluOf, alu_of_not_arithmetic rfl]
  rfl

end Sys2Proof.Machine
end

