-- ==== Sys2Proof/Laws/PerInstr.lean ====
section
/-! SUPPORT. Statements about every instruction as syntax, one lemma per constructor. -/

namespace Sys2Proof

/-- Each operand field takes its own bits: the fields below the opcode stay under bit 26. -/
theorem encodeNat_bound (i : Instr) :
    encodeNat i < opcodeNumber i.op * 2 ^ 26 + 2 ^ 26 := by
  have hc := i.fields.cond.isLt
  have ht := i.fields.rt.isLt
  have h1 := i.fields.rs1.isLt
  have h2 := i.fields.rs2.isLt
  have h0 : 0 ≤ i.fields.offset % 2 ^ 10 := Int.emod_nonneg _ (by norm_num)
  have h3 : i.fields.offset % 2 ^ 10 < 2 ^ 10 := Int.emod_lt_of_pos _ (by norm_num)
  unfold encodeNat
  omega

end Sys2Proof

namespace Sys2Proof.Laws.WordShape

/-- The word of an instruction lies in `0 .. 2^31 - 1` (R71) and carries its opcode number in bits 30 to
26 (R66). -/
def Statement (i : Instr) : Prop :=
  0 ≤ encode i ∧ encode i < 2 ^ 31 ∧ bits (encodeNat i) 30 26 = opcodeNumber i.op

theorem of_number_lt {i : Instr} (h : opcodeNumber i.op < 32) : Statement i := by
  have hb := encodeNat_bound i
  have hl : opcodeNumber i.op * 2 ^ 26 ≤ encodeNat i := by unfold encodeNat; omega
  refine ⟨?_, ?_, ?_⟩
  · unfold encode; omega
  · unfold encode; omega
  · unfold bits; omega

theorem halt (f : Fields) : Statement (.halt f) := of_number_lt (by simp [Instr.op, opcodeNumber])
theorem load (f : Fields) : Statement (.load f) := of_number_lt (by simp [Instr.op, opcodeNumber])
theorem store (f : Fields) : Statement (.store f) := of_number_lt (by simp [Instr.op, opcodeNumber])
theorem add (f : Fields) : Statement (.add f) := of_number_lt (by simp [Instr.op, opcodeNumber])
theorem sub (f : Fields) : Statement (.sub f) := of_number_lt (by simp [Instr.op, opcodeNumber])
theorem mul (f : Fields) : Statement (.mul f) := of_number_lt (by simp [Instr.op, opcodeNumber])
theorem div (f : Fields) : Statement (.div f) := of_number_lt (by simp [Instr.op, opcodeNumber])

end Sys2Proof.Laws.WordShape
end

