-- ==== Sys2Proof/Laws/Step.lean ====
section
/-! SUPPORT. Everything a meaning and an edge can do, said once per shared operation. -/

namespace Sys2Proof.Machine

/-- All a predicated instruction can do: its effect where the predicate holds, else the advance. -/
theorem predicated_cases {f : Fields} {s t e : State} (h : predicated f s e = .next t) :
    (satisfied s.flag f.cond = true ∧ t = e) ∨ (satisfied s.flag f.cond = false ∧ t = advance s) := by
  unfold predicated at h
  split at h
  · next hs => exact .inl ⟨hs, by cases h; rfl⟩
  · next hs => exact .inr ⟨by simpa using hs, by cases h; rfl⟩

theorem predicated_satisfied {f : Fields} {s e : State} (h : satisfied s.flag f.cond = true) :
    predicated f s e = .next e := by simp [predicated, h]

theorem predicated_skipped {f : Fields} {s e : State} (h : satisfied s.flag f.cond = false) :
    predicated f s e = .next (advance s) := by simp [predicated, h]

/-- All a LOAD's effect can be: the load of a valid cell, or the fault after the advance. -/
theorem loadEffect_cases (f : Fields) (s : State) :
    (∃ v, memRead s (loadAddress f s) = some v ∧ loadEffect f s = writeReg f.rt v (advance s)) ∨
      (memRead s (loadAddress f s) = none ∧
        loadEffect f s = raise .loadAddress (loadAddress f s) (pc s) (advance s)) := by
  have hm : memRead (advance s) (loadAddress f s) = memRead s (loadAddress f s) :=
    memRead_congr (by simp) (by simp) _
  unfold loadEffect
  rw [hm]
  cases h : memRead s (loadAddress f s) with
  | none => exact .inr ⟨rfl, rfl⟩
  | some v => exact .inl ⟨v, rfl, rfl⟩

/-- All a STORE's effect can be: the store to a valid cell, or the fault after the advance. -/
theorem storeEffect_cases (f : Fields) (s : State) :
    (validAddress s.config (storeAddress f s) = true ∧
      memWrite (storeAddress f s) (readReg (advance s) f.rt) (advance s) = some (storeEffect f s) ∧
      storeEffect f s = { advance s with
        mem := Machine.store s.mem (storeAddress f s).toNat (readReg (advance s) f.rt) }) ∨
    (validAddress s.config (storeAddress f s) = false ∧
      storeEffect f s = raise .storeAddress (storeAddress f s) (pc s) (advance s)) := by
  unfold storeEffect
  cases h : memWrite (storeAddress f s) (readReg (advance s) f.rt) (advance s) with
  | none => exact .inr ⟨by simpa using memWrite_eq_none.1 h, rfl⟩
  | some t =>
    obtain ⟨ha, rfl⟩ := memWrite_eq_some.1 h
    exact .inl ⟨by simpa using ha, rfl, by simp⟩

/-- Every register after an arithmetic effect (R113). -/
theorem readReg_arithmeticEffect (op : Opcode) (f : Fields) (s : State) (r : Reg) :
    readReg (arithmeticEffect op f s) r = if r = zeroIndex then 0
      else if r = f.rt then (aluOf op f s).1 else if r = pcIndex then pc s + 1 else readReg s r := by
  rw [arithmeticEffect, readReg_setFlag, readReg_writeReg, readReg_advance]

/-- All else an arithmetic effect does (R113): the flag is the ALU's, nothing more changes. -/
theorem arithmeticEffect_frame (op : Opcode) (f : Fields) (s : State) :
    (arithmeticEffect op f s).flag = (aluOf op f s).2 ∧ (arithmeticEffect op f s).mem = s.mem ∧
      SameControl s (arithmeticEffect op f s) ∧ SameEnvironment s (arithmeticEffect op f s) := by
  refine ⟨rfl, ?_, ⟨?_, ?_, ?_⟩, ⟨?_, ?_, ?_, ?_⟩⟩ <;> simp [arithmeticEffect]

/-- The effect of each instruction under a satisfied predicate. -/
def effectOf (i : Instr) (s : State) : State :=
  match i with
  | .halt _ => haltEffect s
  | .load f => loadEffect f s
  | .store f => storeEffect f s
  | .add f => arithmeticEffect .add f s
  | .sub f => arithmeticEffect .sub f s
  | .mul f => arithmeticEffect .mul f s
  | .div f => arithmeticEffect .div f s

/-- Every meaning is its effect, predicated. -/
theorem exec_eq_predicated (i : Instr) (s : State) : exec i s = predicated i.fields s (effectOf i s) := by
  cases i <;> rfl

/-- All an edge can be. -/
theorem clockEdge_cases (s : State) :
    (configWf s.config = false ∧ clockEdge s = .settled (.refused .configurationOutOfRange)) ∨
    (configWf s.config = true ∧ (sample s).rst = true ∧
      clockEdge s = .settled (.next (hardwareReset (beginEdge s)))) ∨
    (configWf s.config = true ∧ (sample s).rst = false ∧ s.runState ≠ .running ∧
      clockEdge s = .settled (betweenRuns (sample s) (beginEdge s))) ∨
    (configWf s.config = true ∧ (sample s).rst = false ∧ s.runState = .running ∧
      waitsForAck (sample s) s = true ∧ clockEdge s = .settled (.next (beginEdge s))) ∨
    (StepsAt s ∧ clockEdge s = fetchDecode (begunSilently s)) := by
  unfold clockEdge
  cases hc : configWf s.config
  · exact .inl ⟨rfl, by simp⟩
  · cases hr : (sample s).rst
    · by_cases hs : s.runState = .running
      · cases hw : waitsForAck (sample s) s
        · exact .inr (.inr (.inr (.inr ⟨⟨hc, hr, hs, hw⟩, by
            simp only [hs, if_true]; rfl⟩)))
        · exact .inr (.inr (.inr (.inl ⟨rfl, rfl, hs, rfl, by simp [hs]⟩)))
      · exact .inr (.inr (.inl ⟨rfl, rfl, hs, by simp [hs]⟩))
    · exact .inr (.inl ⟨rfl, rfl, by simp⟩)

/-- All the fetch and decode of a step can be. -/
theorem fetchDecode_cases (s : State) :
    (memRead s (pc s) = none ∧
      fetchDecode s = .settled (.next (raise .fetchAddress (pc s) (pc s) s))) ∨
    (∃ w e, memRead s (pc s) = some w ∧ decode w = .error e ∧
      fetchDecode s = .settled (.next (raise .decode w (pc s) s))) ∨
    (∃ w i, memRead s (pc s) = some w ∧ decode w = .ok i ∧
      fetchDecode s = .execute i (publish { pc := pc s, word := w, instr := i } s)) := by
  unfold fetchDecode
  cases hm : memRead s (pc s) with
  | none => exact .inl ⟨rfl, rfl⟩
  | some w =>
    cases hd : decode w with
    | error e => exact .inr (.inl ⟨w, e, rfl, hd, by simp [hd]⟩)
    | ok i => exact .inr (.inr ⟨w, i, rfl, hd, by simp [hd]⟩)

@[simp] theorem memRead_begunSilently (s : State) (a : Int) :
    memRead (begunSilently s) a = memRead s a := rfl

@[simp] theorem memRead_begun (w : Int) (i : Instr) (s : State) (a : Int) :
    memRead (begun w i s) a = memRead s a := rfl

theorem publish_begunSilently (w : Int) (i : Instr) (s : State) :
    publish { pc := pc s, word := w, instr := i } (begunSilently s) = begun w i s := rfl

/-- All an edge can come to, by what it fetches: the instruction fetched, to be run on the state begun with
it, or an outcome of its own where no instruction is fetched and decoded. -/
theorem clockEdge_fetches_or_settled (s : State) :
    (∃ w i, Fetches s w i ∧ clockEdge s = .execute i (begun w i s)) ∨
    ((∀ w i, ¬ Fetches s w i) ∧ ∃ o, clockEdge s = .settled o) := by
  rcases clockEdge_cases s with
    ⟨hc, e⟩ | ⟨-, hr, e⟩ | ⟨-, -, hs, e⟩ | ⟨-, -, -, hw, e⟩ | ⟨hst, e⟩
  · exact .inr ⟨fun _ _ h => (nomatch hc.symm.trans h.steps.configOk), _, e⟩
  · exact .inr ⟨fun _ _ h => (nomatch hr.symm.trans h.steps.notReset), _, e⟩
  · exact .inr ⟨fun _ _ h => hs h.steps.running, _, e⟩
  · exact .inr ⟨fun _ _ h => (nomatch hw.symm.trans h.steps.notWaiting), _, e⟩
  · rcases fetchDecode_cases (begunSilently s) with ⟨hm, e'⟩ | ⟨w, x, hm, hd, e'⟩ | ⟨w, i, hm, hd, e'⟩
    · refine .inr ⟨fun _ _ h => ?_, _, e.trans e'⟩
      have := h.word.symm.trans hm
      cases this
    · refine .inr ⟨fun _ _ h => ?_, _, e.trans e'⟩
      obtain rfl := Option.some.inj (h.word.symm.trans hm)
      have := h.decodes.symm.trans hd
      cases this
    · exact .inl ⟨w, i, ⟨hst, hm, hd⟩, e.trans e'⟩

/-- An edge fetches at most one word, and it decodes to one instruction. -/
theorem Fetches.unique {s : State} {w w' : Int} {i i' : Instr} (h : Fetches s w i)
    (h' : Fetches s w' i') : w = w' ∧ i = i' := by
  obtain rfl := Option.some.inj (h.word.symm.trans h'.word)
  have := h.decodes.symm.trans h'.decodes
  exact ⟨rfl, by cases this; rfl⟩

/-- Everything a step can do, where it answers a next state: reset, the run command, an idle edge, a
wait, a fetch fault, a decode fault, or the execution of the fetched instruction. -/
theorem step_cases {s t : State} (h : step s = .next t) :
    configWf s.config = true ∧
    (((sample s).rst = true ∧ t = hardwareReset (beginEdge s)) ∨
    ((sample s).rst = false ∧ s.runState ≠ .running ∧ (sample s).runStart = true ∧
      fits s.config (sample s).runAddr = true ∧ t = runCommand (sample s).runAddr (beginEdge s)) ∨
    ((sample s).rst = false ∧ s.runState ≠ .running ∧ (sample s).runStart = false ∧
      t = beginEdge s) ∨
    ((sample s).rst = false ∧ s.runState = .running ∧ waitsForAck (sample s) s = true ∧
      t = beginEdge s) ∨
    (StepsAt s ∧ memRead s (pc s) = none ∧
      t = raise .fetchAddress (pc s) (pc s) (begunSilently s)) ∨
    (∃ w e, StepsAt s ∧ memRead s (pc s) = some w ∧ decode w = .error e ∧
      t = raise .decode w (pc s) (begunSilently s)) ∨
    (∃ w i, Fetches s w i ∧ exec i (begun w i s) = .next t)) := by
  unfold step at h
  rcases clockEdge_cases s with ⟨-, e⟩ | ⟨hc, hr, e⟩ | ⟨hc, hr, hs, e⟩ | ⟨hc, hr, hs, hw, e⟩ | ⟨hst, e⟩
  · rw [e] at h; cases h
  · rw [e] at h; cases h; exact ⟨hc, .inl ⟨hr, rfl⟩⟩
  · rw [e] at h
    replace h : betweenRuns (sample s) (beginEdge s) = .next t := h
    unfold betweenRuns at h
    split at h
    · next hrs =>
      split at h
      · next hf => cases h; exact ⟨hc, .inr (.inl ⟨hr, hs, hrs, by simpa using hf, rfl⟩)⟩
      · cases h
    · next hrs =>
      cases h
      exact ⟨hc, .inr (.inr (.inl ⟨hr, hs, by simpa using hrs, rfl⟩))⟩
  · rw [e] at h; cases h
    exact ⟨hc, .inr (.inr (.inr (.inl ⟨hr, hs, hw, rfl⟩)))⟩
  · refine ⟨hst.configOk, ?_⟩
    rw [e] at h
    rcases fetchDecode_cases (begunSilently s) with ⟨hm, e⟩ | ⟨w, x, hm, hd, e⟩ | ⟨w, i, hm, hd, e⟩
    · rw [e] at h; cases h
      exact .inr (.inr (.inr (.inr (.inl ⟨hst, by simpa using hm, rfl⟩))))
    · rw [e] at h; cases h
      exact .inr (.inr (.inr (.inr (.inr (.inl ⟨w, x, hst, by simpa using hm, hd, rfl⟩)))))
    · rw [e] at h
      exact .inr (.inr (.inr (.inr (.inr (.inr ⟨w, i, ⟨hst, by simpa using hm, hd⟩, h⟩)))))

end Sys2Proof.Machine
end

