-- ==== Sys2Proof/Laws/Ports.lean ====
section
/-! SUPPORT. What the trace port and the data port can show, said once for each. -/

namespace Sys2Proof.Machine

/-- All the trace outputs can show: the event of the instruction fetched, or nothing. -/
theorem tracePort_cases (s : State) :
    (∃ w i, Fetches s w i ∧ tracePort s = some { pc := pc s, word := w, instr := i }) ∨
    ((∀ w i, ¬ Fetches s w i) ∧ tracePort s = none) := by
  unfold tracePort
  rcases clockEdge_fetches_or_settled s with ⟨w, i, h, e⟩ | ⟨h, o, e⟩
  · exact .inl ⟨w, i, h, by rw [e]; rfl⟩
  · exact .inr ⟨h, by rw [e]⟩

/-- The trace outputs at an edge that fetches and decodes. -/
theorem tracePort_of_fetches {s : State} {w : Int} {i : Instr} (h : Fetches s w i) :
    tracePort s = some { pc := pc s, word := w, instr := i } := by
  rcases tracePort_cases s with ⟨w', i', h', e⟩ | ⟨hn, -⟩
  · obtain ⟨rfl, rfl⟩ := h.unique h'
    exact e
  · exact absurd h (hn w i)

/-- The trace outputs at every other edge. -/
theorem tracePort_of_not_fetches {s : State} (h : ∀ w i, ¬ Fetches s w i) : tracePort s = none := by
  rcases tracePort_cases s with ⟨w, i, h', -⟩ | ⟨-, e⟩
  · exact absurd h' (h w i)
  · exact e

/-- All the data port can show: the access of the instruction fetched under a satisfied predicate, or no
access. -/
theorem dataPort_cases (s : State) :
    (∃ w i, Fetches s w i ∧ satisfied s.flag i.fields.cond = true ∧
      dataPort s = dataAccess i (begun w i s)) ∨
    ((∀ w i, Fetches s w i → satisfied s.flag i.fields.cond = false) ∧ dataPort s = .idle) := by
  unfold dataPort
  rcases clockEdge_fetches_or_settled s with ⟨w, i, h, e⟩ | ⟨h, o, e⟩
  · rw [e]
    show (∃ w' i', _) ∨ (_ ∧ (if satisfied s.flag i.fields.cond = true then _ else _) = _)
    cases hs : satisfied s.flag i.fields.cond
    · exact .inr ⟨fun w' i' h' => by obtain ⟨-, rfl⟩ := h.unique h'; exact hs, rfl⟩
    · exact .inl ⟨w, i, h, hs, if_pos hs⟩
  · rw [e]
    exact .inr ⟨fun w i h' => absurd h' (h w i), rfl⟩

/-- The data access of an instruction does not depend on what an edge begins with. -/
@[simp] theorem dataAccess_begun (w : Int) (j i : Instr) (s : State) :
    dataAccess i (begun w j s) = dataAccess i s := by cases i <;> rfl

end Sys2Proof.Machine
end

