-- ==== Sys2Proof/Tests/Slice0.lean ====
section
/-! SUPPORT. Tests from the spec's vectors (95_test_vectors.md), and states that meet the hypotheses of the statements. -/

namespace Sys2Proof.Tests

open Sys2Proof Sys2Proof.Machine

/-- Operand fields, positionally. -/
def fields (cond : Mask) (rt rs1 rs2 : Reg) (offset : Int) : Fields :=
  { cond := cond, rt := rt, rs1 := rs1, rs2 := rs2, offset := offset }

/-- The reset state, RUNNING at `pc`, with a flag, registers and memory of its own. -/
def running (pc : Int) (flag : Mask) (regs : List (Reg × Int)) (mem : Memory) : State :=
  regs.foldl (fun s e => writeReg e.1 e.2 s)
    { runCommand pc State.reset with flag := flag, mem := mem }

/-- The outcome is a next state with the property. -/
def nextHas (o : Result) (p : State → Bool) : Bool :=
  match o with
  | .next t => p t
  | .fault _ => false
  | .refused _ => false

theorem next_of_nextHas {o : Result} {p : State → Bool} (h : nextHas o p = true) :
    ∃ t, o = .next t ∧ p t = true := by
  cases o with
  | next t => exact ⟨t, rfl, h⟩
  | fault f => cases h
  | refused r => cases h

/-- An edge at which only `rst` is driven. -/
def rstPulse : Inputs := { Inputs.quiet with rst := true }

/-- An edge at which a run command for `a` is driven. -/
def runPulse (a : Int) : Inputs := { Inputs.quiet with runStart := true, runAddr := a }

/-- An edge with `single_step` high, and `step_ack` as given. -/
def stepPulse (ack : Bool) : Inputs := { Inputs.quiet with singleStep := true, stepAck := ack }

/-! ## Well-formedness and encoding -/

theorem test_wellFormed_refuses_offset_512 :
    (Instr.add (fields always 1 0 0 512)).wellFormed = false := by decide

theorem test_wellFormed_refuses_offset_minus_513 :
    (Instr.load (fields always 1 0 0 (-513))).wellFormed = false := by decide

theorem test_wellFormed_accepts_the_ends :
    (Instr.sub (fields flagV 4 5 6 (-512))).wellFormed = true ∧
    (Instr.load (fields flagZ 7 8 9 511)).wellFormed = true := by decide

/-- Bits written out by the layout of R66: reserved 31, op, cond, rt, rs1, rs2, offset. -/
theorem test_decode_words_of_every_operation :
    decodeTableWord 32 0b0_00000_1111_0101_0110_0111_0000001000 = some (.halt (fields always 5 6 7 8)) ∧
    decodeTableWord 32 0b0_00001_0010_0111_1000_1001_0111111111 = some (.load (fields flagZ 7 8 9 511)) ∧
    decodeTableWord 32 0b0_00010_0100_1110_1101_1100_1111111111 =
      some (.store (fields flagP 14 13 12 (-1))) ∧
    decodeTableWord 32 0b0_00011_0100_1111_1111_0000_1111111110 =
      some (.add (fields flagP 15 15 0 (-2))) ∧
    decodeTableWord 32 0b0_00101_1000_0100_0101_0110_1000000000 =
      some (.sub (fields flagV 4 5 6 (-512))) ∧
    decodeTableWord 32 0b0_00110_0110_0011_0001_0010_0000000000 = some (.mul (fields 6#4 3 1 2 0)) ∧
    decodeTableWord 32 0b0_00111_0001_0011_0001_0010_1111111011 =
      some (.div (fields flagM 3 1 2 (-5))) := by decide

/-- Malformed words of section 2 of the vectors: opcode numbers 4, 8 and 31, and bit 31 set. -/
theorem test_decode_rejects :
    decodeTableWord 32 0x13C00000 = none ∧ decodeTableWord 32 0x23C00000 = none ∧
    decodeTableWord 32 0x7FC00000 = none ∧ decodeTableWord 32 0x80000000 = none ∧
    decodeTableWord 32 0xFFFFFFFF = none := by decide

theorem test_encode_words_of_every_operation :
    encode (.halt (fields always 0 0 0 0)) = 0x03C00000 ∧
    encode (.load (fields always 1 15 0 3)) = 0x07C7C003 ∧
    encode (.store (fields always 15 0 0 400)) = 0x0BFC0190 ∧
    encode (.add (fields always 1 0 0 5)) = 264503301 ∧
    encode (.sub (fields always 1 0 0 3)) = 398721027 ∧
    encode (.mul (fields always 3 1 2 0)) = 466372608 ∧
    encode (.div (fields always 2 1 0 0)) = 533217280 := by decide

theorem test_assembly_parse :
    (parseAsm "ADD r1,r0,r0,offset=5,cond=ALWAYS").map assemble = some 264503301 ∧
    (parseAsm "MUL r3,r1,r2,cond=P|Z").map assemble = some 428623872 ∧
    (parseAsm "HALT").map assemble = some 62914560 ∧ (parseAsm ".word -7").map assemble = some (-7) ∧
    parseAsm "ADD r1,r0,r16" = none ∧ parseAsm "SUB r1,r0,r0,offset=512" = none := by decide

theorem test_assembly_text :
    asmText (.three .mul 3 1 2 (some 0) (some 6#4)) = "MUL r3,r1,r2,offset=0,cond=Z|P" ∧
    asmText (.halt (some always)) = "HALT,cond=ALWAYS" ∧ asmText (.word (-7)) = ".word -7" := by decide

/-! ## The ALU (section 3 of the vectors) -/

theorem test_alu_overflow :
    alu Config.standard .add 2147483647 1 = (0, flagV) ∧
    alu Config.standard .add (-1) 2147483648 = (2147483647, flagP) ∧
    alu Config.standard .sub (-1) 2147483647 = (-2147483648, flagM) ∧
    alu Config.standard .mul 65536 65536 = (0, flagV) ∧
    alu Config.standard .mul (-65536) 32768 = (-2147483648, flagM) ∧
    alu Config.standard .div (-2147483648) (-1) = (0, flagV) := by decide

theorem test_alu_division_floors :
    alu Config.standard .div (-7) 2 = (-4, flagM) ∧ alu Config.standard .div 7 (-2) = (-4, flagM) ∧
    alu Config.standard .div (-7) (-2) = (3, flagP) ∧ alu Config.standard .div 1 (-2) = (-1, flagM) ∧
    alu Config.standard .div (-6) 3 = (-2, flagM) ∧ alu Config.standard .div (-7) 0 = (0, flagV) := by
  decide

theorem test_alu_addresses_are_exact :
    alu Config.standard .load 2147483647 2147484158 = (4294967805, flagP) ∧
    alu Config.standard .halt 123 (-456) = (0, flagZ) := by decide

/-! ## One step each (section 4 of the vectors) -/

theorem test_step_add_reads_both_sources_before_the_advance :
    nextHas (step (running 9 always [] [(9, encode (.add (fields always 3 15 15 0)))]))
      (fun t => readReg t 3 = 18 && t.flag = flagP && pc t = 10) = true := by decide

theorem test_step_add_jump :
    nextHas (step (running 4 flagP [] [(4, 0x0D3FC3FE)]))
      (fun t => pc t = 2 && t.flag = flagP) = true := by decide

theorem test_step_sub_negative :
    nextHas (step (running 0 always [] [(0, 0x17C40003)]))
      (fun t => readReg t 1 = -3 && t.flag = flagM && pc t = 1) = true := by decide

theorem test_step_sub_compare_discards :
    nextHas (step (running 7 always [(1, 2), (2, 3)] [(7, 0x17C04800)]))
      (fun t => readReg t 0 = 0 && t.flag = flagM && pc t = 8) = true := by decide

theorem test_step_mul :
    nextHas (step (running 7 always [(1, 6), (2, 7)] [(7, 0x1BCC4800)]))
      (fun t => readReg t 3 = 42 && t.flag = flagP && pc t = 8) = true := by decide

theorem test_step_mul_skipped :
    nextHas (step (running 10 flagV [(1, 6), (2, 7)] [(10, 0x198C4800)]))
      (fun t => readReg t 3 = 0 && t.flag = flagV && pc t = 11) = true := by decide

theorem test_step_div_offset_in_divisor :
    nextHas (step (running 7 flagM [(1, -7), (2, 7)] [(7, 0x1C4C4BFB)]))
      (fun t => readReg t 3 = -4 && t.flag = flagM && pc t = 8) = true := by decide

theorem test_step_div_by_zero :
    nextHas (step (running 7 flagM [(1, 7), (2, 5), (3, 1)] [(7, 0x1C4C4BFB)]))
      (fun t => readReg t 3 = 0 && t.flag = flagV && t.fault = none) = true := by decide

theorem test_step_load_last_operands :
    nextHas (step (running 6 flagZ [(8, 100), (9, 200)] [(6, 0x049E25FF), (811, -9)]))
      (fun t => readReg t 7 = -9 && t.flag = flagZ && pc t = 7) = true := by decide

theorem test_step_load_faults_exactly :
    nextHas (step (running 0 always [(1, 2147483647), (2, 2147483647)]
        [(0, encode (.load (fields always 3 1 2 511)))]))
      (fun t => t.fault = some { cause := .loadAddress, info := 4294967805, atPc := 0 } &&
        pc t = 1 && t.runState = .faulted && t.trace.isSome) = true := by decide

theorem test_step_store_stores_the_advanced_pc :
    nextHas (step (running 1 always [] [(1, 0x0BFC0190)]))
      (fun t => memRead t 400 = some 2 && pc t = 2 && t.flag = always) = true := by decide

theorem test_step_store_past_the_end_faults :
    nextHas (step (running 6 flagP [(13, 1000), (12, 25), (14, 77)] [(6, 0x093B73FF)]))
      (fun t => t.fault = some { cause := .storeAddress, info := 1024, atPc := 6 } &&
        pc t = 7 && t.mem = [(6, 0x093B73FF)]) = true := by decide

theorem test_step_halt :
    nextHas (step (running 2 flagM [] [(2, 0x03D59C08)]))
      (fun t => t.halted && t.runState = .halted && pc t = 3 && t.flag = flagM) = true := by decide

theorem test_step_halt_skipped :
    nextHas (step (running 2 flagP [] [(2, 0x00800000)]))
      (fun t => !t.halted && t.runState = .running && pc t = 3) = true := by decide

/-- P8 of the vectors: zeroed memory is no halt, and the program counter runs off its end. -/
theorem test_step_off_the_end :
    nextHas (step (running 1024 always [] []))
      (fun t => t.fault = some { cause := .fetchAddress, info := 1024, atPc := 1024 } &&
        pc t = 1024 && t.trace = none) = true := by decide

/-- R153, R156: the reset and the run command. -/
theorem test_run_from_halted_keeps_registers_and_flag :
    nextHas (step { running 9 flagP [(1, 5)] [] with
        halted := true, runState := .halted, inputs := [runPulse 40] })
      (fun t => pc t = 40 && !t.halted && t.runState = .running && readReg t 1 = 5 && t.flag = flagP)
      = true := by decide

theorem test_withFetchWord_runs :
    nextHas (step (State.reset.withFetchWord 32 264503301))
      (fun t => readReg t 1 = 5 && pc t = 1 && t.flag = flagP) = true := by decide

/-! ## States that meet the hypotheses of the statements

Each `witness_<statement>` meets all hypotheses of the statement of that name together, once for each of
its clauses, at the ends of the ranges. A witness named after several statements serves each. -/

theorem stepsAt_of {s : State}
    (h : (configWf s.config && !(sample s).rst && decide (s.runState = .running) &&
      !(waitsForAck (sample s) s)) = true) : StepsAt s := by
  simp only [Bool.and_eq_true, Bool.not_eq_true', decide_eq_true_eq] at h
  exact ⟨h.1.1.1, h.1.1.2, h.1.2, h.2⟩

/-- RUNNING at 0 with `STORE r1,r0,r0,offset=100` there, a no-op after it, 9 at 100 and r1 = 5. -/
def ready : State := running 0 always [(1, 5)] [(0, 0x0BC40064), (1, 0), (100, 9)]

theorem ready_inv : Machine.Inv ready :=
  ⟨by decide, rfl, by decide, ⟨by decide, by decide, by decide⟩, by decide, by decide, by decide⟩

theorem ready_fetches : Fetches ready 0x0BC40064 (.store (fields always 1 0 0 100)) :=
  ⟨stepsAt_of (by decide), by decide, by decide⟩

/-- A running state at 0 whose cell 0 holds an instruction, the registers as given. -/
def at0 (flag : Mask) (i : Instr) (regs : List (Reg × Int)) : State :=
  running 0 flag regs (store [] 0 (encode i))

/-! ### Encoding -/

theorem witness_EncodeAndDecodeAreInverse :
    (Instr.sub (fields flagV 15 15 15 (-512))).wellFormed = true ∧
    (Instr.div (fields always 15 15 15 511)).wellFormed = true ∧
    decode 0x1FFFFDFF = .ok (.div (fields always 15 15 15 511)) := by decide

theorem witness_DecodeIsTotalAndInjective :
    decode 0 = .ok (.halt (fields never 0 0 0 0)) := by decide

theorem witness_DecodeReadsTheFields :
    ((-1 : Int) < 0 ∧ (2 : Int) ^ 31 ≤ 2147483648) ∧
    ∀ e ∈ [(0x03C00000#32, 0), (0x07C7C003#32, 1), (0x0BC40064#32, 2), (0x0FC40005#32, 3),
        (0x13C00000#32, 4), (0x17C40003#32, 5), (0x1BCC4800#32, 6), (0x1FC84000#32, 7),
        (0x23C00000#32, 8), (0x7FFFFFFF#32, 31)],
      e.1.toNat < 2 ^ 31 ∧ (e.1.extractLsb 30 26).toNat = e.2 := by decide

/-- Masked patterns that are none of the seven match words. -/
theorem witness_MatchAndMaskSelectTheOperation :
    0x13C00000#32 &&& 0xFC000000#32 = 0x10000000#32 ∧ 0x23C00000#32 &&& 0xFC000000#32 = 0x20000000#32 ∧
    0x80000000#32 &&& 0xFC000000#32 = 0x80000000#32 := by decide

/-- Both ends of each malformed range: below 0, above `2^31 - 1`, opcode numbers 4, 8 and 31. -/
theorem witness_MalformedWordsFaultWhenFetched :
    ∀ w ∈ [(-1 : Int), 2147483647, 268435456, 335544319, 536870912],
      StepsAt (running 0 flagP [] [(0, w)]) ∧ memRead (running 0 flagP [] [(0, w)]) 0 = some w ∧
        (w < 0 ∨ 2 ^ 31 - 1 < w ∨ w / 2 ^ 26 = 4 ∨ (8 ≤ w / 2 ^ 26 ∧ w / 2 ^ 26 ≤ 31)) := by
  intro w hw
  refine ⟨⟨rfl, rfl, rfl, rfl⟩, rfl, ?_⟩
  revert w
  decide

theorem witness_AssembledLinesDecodeToTheirInstruction :
    asmInstr (.three .load 7 8 9 (some 511) (some flagZ)) = some (.load (fields flagZ 7 8 9 511)) ∧
    asmInstr (.halt none) = some (.halt (fields always 0 0 0 0)) ∧
    (Instr.load (fields flagZ 7 8 9 511)).wellFormed = true ∧
    (Instr.halt (fields always 0 0 0 0)).wellFormed = true := by decide

/-! ### The ALU, registers and memory -/

theorem witness_DivisionRoundsDown_and_DivisionSignsAndLaws :
    ∀ e ∈ [((7 : Int), (2 : Int)), (-7, 2), (7, -2), (-7, -2), (-6, 3), (6, -3), (0, -5), (5, 1), (5, -1),
        (1, 2), (2147483647, -2147483648)],
      e.2 ≠ 0 ∧ (alu Config.standard .div e.1 e.2).2 ≠ flagV := by decide

theorem witness_ZeroDivisorGivesZeroAndV :
    satisfied (at0 flagM (.div (fields flagM 3 1 2 (-5))) [(1, 7), (2, 5)]).flag flagM = true ∧
    readReg (at0 flagM (.div (fields flagM 3 1 2 (-5))) [(1, 7), (2, 5)]) 2 + -5 = 0 ∧
    (3 : Reg) ≠ pcIndex ∧ (-5 : Int) ≠ 0 ∧
    fits { xlen := none, memSize := 1024 } (Int.floor ((0 : ℚ) / ((-5 : Int) : ℚ))) = true :=
  ⟨by decide, by decide, by decide, by decide, rfl⟩

theorem witness_OverflowGivesZeroAndV :
    (∀ e ∈ [(Opcode.add, (2147483647 : Int), (1 : Int)), (.sub, -2147483648, 1), (.mul, 65536, 32768),
        (.div, -2147483648, -1)],
      isArithmetic e.1 = true ∧ fits Config.standard (exactResult e.1 e.2.1 e.2.2) = false) ∧
    fits Config.standard (-2147483648) = true ∧ fits Config.standard 2147483647 = true := by decide

theorem witness_PredicateIsTheMeetOfFlagAndCondition : always ∈ legalFlags ∧ flagV ∈ legalFlags := by
  decide

theorem witness_RegisterZeroDiscardsWrites :
    (1 : Reg) ≠ zeroIndex ∧ (15 : Reg) ≠ zeroIndex ∧ (15 : Reg) ≠ 1 := by decide

theorem witness_MemoryReadsWhatWasWritten :
    ready.mem.wf ∧ (0 : Int) < ready.config.memSize ∧ (1023 : Int) < ready.config.memSize ∧
    (ready.config.memSize : Int) ≤ 1024 := by decide

/-! ### The instructions -/

/-- Executed with a result that fits and with one that does not, into r1, r0 and r15; DIV also with a
zero divisor. -/
theorem witness_AddCompletes_SubCompletes_MulCompletes_DivCompletes :
    ∀ e ∈ [((1 : Reg), (3 : Int)), (0, 2147483647), (15, -2147483648)],
      ∀ k ∈ [(0 : Int), 511, -512],
      satisfied (running 0 flagZ [(2, e.2)] []).flag (fields 2#4 e.1 2 0 k).cond = true := by decide

theorem witness_ArithmeticInstructionsShareOneForm :
    isArithmetic .add = true ∧ isArithmetic .sub = true ∧ isArithmetic .mul = true ∧
    isArithmetic .div = true ∧ flagM &&& flagM ≠ 0#4 ∧ flagM &&& flagP = 0#4 ∧
    isArithmetic .load = false ∧ ∃ t, exec (Instr.make .load (fields always 1 0 0 0)) ready = .next t :=
  ⟨by decide, by decide, by decide, by decide, by decide, by decide, by decide, _, rfl⟩

/-- Addresses 0 and 1023, the ends of the valid range. -/
theorem witness_LoadCompletes_StoreCompletes :
    ∀ k ∈ [(0 : Int), 1023],
      ready.mem.wf ∧ satisfied ready.flag always = true ∧
      loadAddress (fields always 15 1 0 (k - 5)) ready = k ∧
      storeAddress (fields always 15 1 0 (k - 5)) ready = k ∧ 0 ≤ k ∧
      k < ready.config.memSize := by decide

theorem witness_HaltCompletes : satisfied flagV (fields flagV 5 6 7 8).cond = true := by decide

theorem witness_SkippedInstructionOnlyAdvances :
    Fetches (at0 flagP (.div (fields flagM 2 1 0 0)) []) 0x1C484000 (.div (fields flagM 2 1 0 0)) ∧
    flagP &&& flagM = 0#4 := ⟨⟨stepsAt_of (by decide), by decide, by decide⟩, by decide⟩

/-- Addresses -1 and 1024, either side of the valid range; the last state skips its instruction. -/
theorem witness_InvalidDataAddressFaults :
    Fetches (at0 flagP (.load (fields always 1 0 0 (-1))) []) 0x07C403FF (.load (fields always 1 0 0 (-1))) ∧
    readReg (at0 flagP (.load (fields always 1 0 0 (-1))) []) 0 +
      readReg (at0 flagP (.load (fields always 1 0 0 (-1))) []) 0 + -1 < 0 ∧
    Fetches (at0 flagP (.store (fields flagP 14 13 12 (-1))) [(13, 1000), (12, 25)]) 0x093B73FF
      (.store (fields flagP 14 13 12 (-1))) ∧
    1024 ≤ readReg (at0 flagP (.store (fields flagP 14 13 12 (-1))) [(13, 1000), (12, 25)]) 13 +
      readReg (at0 flagP (.store (fields flagP 14 13 12 (-1))) [(13, 1000), (12, 25)]) 12 + -1 ∧
    Fetches (at0 flagM (.store (fields flagP 14 13 12 (-1))) [(13, 1000), (12, 25)]) 0x093B73FF
      (.store (fields flagP 14 13 12 (-1))) ∧ satisfied flagM flagP = false :=
  ⟨⟨stepsAt_of (by decide), by decide, by decide⟩, by decide,
    ⟨stepsAt_of (by decide), by decide, by decide⟩, by decide,
    ⟨stepsAt_of (by decide), by decide, by decide⟩, by decide⟩

theorem witness_AddressIsExactAndBounded :
    Machine.Inv ready ∧ (fields always 3 1 2 511).wellFormed = true ∧ ready.config.xlen = some 32 :=
  ⟨ready_inv, by decide, rfl⟩

/-- One state per disjunct: skipped, another target, STORE of r15, HALT. -/
theorem witness_SequentialFlow :
    (∃ t, exec (.add (fields flagM 15 0 0 7)) { ready with flag := flagP } = .next t ∧ pc t = 1) ∧
    (∃ t, exec (.add (fields always 1 0 0 7)) ready = .next t ∧ pc t = 1) ∧
    (∃ t, exec (.store (fields always 15 0 0 7)) ready = .next t ∧ pc t = 1) ∧
    (∃ t, exec (.halt (fields always 15 0 0 7)) ready = .next t ∧ pc t = 1) :=
  ⟨⟨_, rfl, by decide⟩, ⟨_, rfl, by decide⟩, ⟨_, rfl, by decide⟩, ⟨_, rfl, by decide⟩⟩

theorem witness_WhatReadsOfTheProgramCounterSee :
    satisfied ready.flag always = true ∧ ready.mem.wf ∧
    validAddress ready.config (storeAddress (fields always 15 15 15 400) ready) = true ∧
    (∃ t, exec (.store (fields always 15 15 15 400)) ready = .next t) ∧
    (∃ t, exec (.sub (fields always 15 15 15 400)) ready = .next t) ∧
    memRead ready (loadAddress (fields always 15 15 15 0) ready) = some 0x0BC40064 ∧
    (∃ t, exec (.load (fields always 15 15 15 0)) ready = .next t) ∧
    (∃ t, exec (.halt (fields always 15 15 15 0)) ready = .next t) :=
  ⟨by decide, by decide, by decide, ⟨_, rfl⟩, ⟨_, rfl⟩, by decide, ⟨_, rfl⟩, ⟨_, rfl⟩⟩

theorem witness_JumpsThroughRegisterFifteen :
    satisfied (running 9 flagP [] []).flag flagP = true ∧
    (∀ k ∈ [(-9 : Int), -10, 511], fits Config.standard (pc (running 9 flagP [] []) + k) = true) ∧
    memRead (running 9 flagP [] [(7, -3)]) (0 + 0 + 7) = some (-3) := by decide

/-- The compare's difference fits in the first state and overflows in the second. -/
theorem witness_IdiomsHaveTheirEffects :
    satisfied always always = true ∧
    fits Config.standard (readReg (running 0 always [(1, 2), (2, 3)] []) 1 -
      readReg (running 0 always [(1, 2), (2, 3)] []) 2) = true ∧
    fits Config.standard (readReg (running 0 always [(1, 2147483647), (2, -1)] []) 1 -
      readReg (running 0 always [(1, 2147483647), (2, -1)] []) 2) = false ∧
    fits Config.standard 511 = true ∧ fits Config.standard (-512) = true := by decide

theorem witness_StoreThenLoadReturnsTheValue :
    ready.mem.wf ∧ satisfied ready.flag always = true ∧
    validAddress ready.config (storeAddress (fields always 1 0 0 100) ready) = true ∧
    ∃ t, exec (.store (fields always 1 0 0 100)) ready = .next t ∧
      loadAddress (fields always 2 0 0 100) t = storeAddress (fields always 1 0 0 100) ready :=
  ⟨by decide, by decide, by decide, _, rfl, by decide⟩

theorem witness_EffectDependsOnRegistersFlagAndMemory :
    ∃ t, exec (.add (fields always 1 0 0 7)) { ready with trace := none, inputs := [rstPulse] } = .next t :=
  ⟨_, rfl⟩

/-! ### Steps -/

theorem witness_StepRunsTheDecodedInstruction :
    Fetches ready 0x0BC40064 (.store (fields always 1 0 0 100)) := ready_fetches

theorem witness_InvalidFetchAddressFaults :
    StepsAt (running (-1) always [] []) ∧ pc (running (-1) always [] []) < 0 ∧
    StepsAt (running 1024 always [] []) ∧
    ((running 1024 always [] []).config.memSize : Int) ≤ pc (running 1024 always [] []) :=
  ⟨stepsAt_of (by decide), by decide, stepsAt_of (by decide), by decide⟩

theorem witness_MalformedWordLeavesTheStateAlone :
    StepsAt (running 0 flagP [] [(0, 331350016)]) ∧
    memRead (running 0 flagP [] [(0, 331350016)]) 0 = some 331350016 ∧
    decode 331350016 = .error (.unassignedOpcode 4) := ⟨stepsAt_of (by decide), by decide, by decide⟩

/-- Each of the four faults; the first line is for the clause of the writers that no step finds the latch set. -/
theorem witness_FaultLatchRecordsTheCause_and_WritersOfTheFaultLatch :
    (Machine.Inv ready ∧ StepsAt ready ∧ ∃ t, step ready = .next t) ∧
    (∃ t, step (running (-5) always [] []) = .next t) ∧
    FaultsAt (running (-5) always [] []) .fetchAddress (-5) ∧
    FaultsAt (running 0 flagP [] [(0, -1)]) .decode (-1) ∧
    FaultsAt (at0 flagP (.load (fields always 1 0 0 (-1))) []) .loadAddress (-1) ∧
    FaultsAt (at0 flagP (.store (fields always 1 0 0 (-1))) []) .storeAddress (-1) := by
  refine ⟨⟨ready_inv, ready_fetches.steps,
      (next_of_nextHas (p := fun _ => true) (by decide)).imp fun _ h => h.1⟩,
    (next_of_nextHas (p := fun _ => true) (by decide)).imp fun _ h => h.1,
    .fetch (stepsAt_of (by decide)) (by decide),
    .word (e := .outsideWordRange) (stepsAt_of (by decide)) (by decide) (by decide), ?_, ?_⟩
  · exact FaultsAt.load (s := at0 flagP (.load (fields always 1 0 0 (-1))) [])
      (w := 0x07C403FF) (f := fields always 1 0 0 (-1))
      ⟨stepsAt_of (by decide), by decide, by decide⟩ (by decide) (by decide)
  · exact FaultsAt.store (s := at0 flagP (.store (fields always 1 0 0 (-1))) [])
      (w := 0x0BC403FF) (f := fields always 1 0 0 (-1))
      ⟨stepsAt_of (by decide), by decide, by decide⟩ (by decide) (by decide)

theorem witness_StepFrame_and_TraceShowsEveryDecodedInstruction :
    Fetches ready 0x0BC40064 (.store (fields always 1 0 0 100)) ∧ ready.mem.wf ∧
    ∃ t, step ready = .next t ∧ t.runState ≠ .faulted := by
  refine ⟨ready_fetches, by decide, ?_⟩
  obtain ⟨t, h, ht⟩ := next_of_nextHas (o := step ready) (p := fun t => t.runState ≠ .faulted) (by decide)
  exact ⟨t, h, by simpa using ht⟩

/-- An edge of each kind: reset, arithmetic, HALT, a run command, an idle edge. -/
theorem witness_WritersOfTheFlag_WritersOfHalted_RunStateTransitions :
    ((sample { ready with inputs := [rstPulse] }).rst = true ∧
      ∃ t, step { ready with inputs := [rstPulse] } = .next t) ∧
    (Executes (at0 always (.sub (fields always 1 0 0 3)) []) .sub (fields always 1 0 0 3) ∧
      ∃ t, step (at0 always (.sub (fields always 1 0 0 3)) []) = .next t) ∧
    (Executes (at0 always (.halt (fields always 0 0 0 0)) []) .halt (fields always 0 0 0 0) ∧
      ∃ t, step (at0 always (.halt (fields always 0 0 0 0)) []) = .next t) ∧
    (TakesRunCommand { State.reset with inputs := [runPulse 40] } ∧
      ∃ t, step { State.reset with inputs := [runPulse 40] } = .next t) ∧
    (¬ TakesRunCommand State.reset ∧ ∃ t, step State.reset = .next t) := by
  refine ⟨⟨by decide, ?_⟩, ⟨⟨0x17C40003, ⟨stepsAt_of (by decide), by decide, by decide⟩, by decide⟩, ?_⟩,
    ⟨⟨0x03C00000, ⟨stepsAt_of (by decide), by decide, by decide⟩, by decide⟩, ?_⟩,
    ⟨⟨by decide, by decide, by decide⟩, ?_⟩, ⟨fun h => absurd h.2.2 (by decide), ?_⟩⟩ <;>
  exact (next_of_nextHas (p := fun _ => true) (by decide)).imp fun _ h => h.1

/-- A STORE into the cell that is fetched next, of a word that decodes and of one that does not. -/
theorem witness_NextFetchSeesTheStore :
    ∀ v ∈ [(62914560 : Int), -1],
      let s := running 0 always [(1, v)] [(0, 0x0BC7C001)]
      s.mem.wf ∧ Fetches s 0x0BC7C001 (.store (fields always 1 15 0 1)) ∧
      satisfied s.flag always = true ∧
      ∃ t, step s = .next t ∧ t.runState = .running ∧ storeAddress (fields always 1 15 0 1) s = pc t ∧
        StepsAt t := by
  have go : ∀ s : State, s.mem.wf ∧ memRead s (pc s) = some 0x0BC7C001 ∧ satisfied s.flag always = true ∧
      (configWf s.config && !(sample s).rst && decide (s.runState = .running) &&
        !(waitsForAck (sample s) s)) = true ∧
      nextHas (step s) (fun t => t.runState = .running &&
        storeAddress (fields always 1 15 0 1) s = pc t && (configWf t.config && !(sample t).rst &&
          decide (t.runState = .running) && !(waitsForAck (sample t) t))) = true →
      s.mem.wf ∧ Fetches s 0x0BC7C001 (.store (fields always 1 15 0 1)) ∧
      satisfied s.flag always = true ∧
      ∃ t, step s = .next t ∧ t.runState = .running ∧ storeAddress (fields always 1 15 0 1) s = pc t ∧
        StepsAt t := by
    intro s ⟨hm, hw, hs, hst, hn⟩
    obtain ⟨t, h, ht⟩ := next_of_nextHas hn
    rw [Bool.and_eq_true, Bool.and_eq_true, decide_eq_true_eq, decide_eq_true_eq] at ht
    exact ⟨hm, ⟨stepsAt_of hst, hw, by decide⟩, hs, t, h, ht.1.1, ht.1.2, stepsAt_of ht.2⟩
  intro v hv
  apply go
  revert v
  decide

theorem witness_DataPortCarriesTheStore :
    (Executes ready .store (fields always 1 0 0 100) ∧ dataPort ready =
      { addr := some 100, rdata := some 9, we := true, wdata := some 5, err := some false } ∧
      ∃ t, step ready = .next t) ∧
    (Executes (at0 flagP (.load (fields always 1 0 0 (-1))) []) .load (fields always 1 0 0 (-1)) ∧
      dataPort (at0 flagP (.load (fields always 1 0 0 (-1))) []) =
      { addr := some (-1), rdata := none, we := false, wdata := none, err := some true } ∧
      ∃ t, step (at0 flagP (.load (fields always 1 0 0 (-1))) []) = .next t) ∧
    ((∀ op f, ¬ Executes State.reset op f) ∧ dataPort State.reset = .idle ∧
      ∃ t, step State.reset = .next t) := by
  refine ⟨⟨⟨0x0BC40064, ready_fetches, by decide⟩, by decide, ?_⟩,
    ⟨⟨0x07C403FF, ⟨stepsAt_of (by decide), by decide, by decide⟩, by decide⟩, by decide, ?_⟩,
    ⟨fun _ _ ⟨_, h, _⟩ => (nomatch h.steps.running), by decide, ?_⟩⟩ <;>
  exact (next_of_nextHas (p := fun _ => true) (by decide)).imp fun _ h => h.1

/-- The latch empty in the first state and holding a record in the second, which the coming edge leaves. -/
theorem witness_StatusPortsShowTheState :
    Machine.Inv ready ∧ ready.fault = none ∧
    Fetches ready 0x0BC40064 (.store (fields always 1 0 0 100)) ∧
    (raise .decode (-1) 0 ready).fault = some { cause := .decode, info := -1, atPc := 0 } ∧
    ∀ w i, ¬ Fetches (raise .decode (-1) 0 ready) w i :=
  ⟨ready_inv, rfl, ready_fetches, rfl, fun _ _ h => nomatch h.steps.running⟩

/-- R147: in one cycle the outputs show the event beside the registers and the flag from before the step. -/
theorem test_ports_show_the_event_beside_the_pre_state :
    (statusPorts (running 0 always [] [(0, 264503301)])).traceWord = some 264503301 ∧
    (statusPorts (running 0 always [] [(0, 264503301)])).regO[1]? = some 0 ∧
    (statusPorts (running 0 always [] [(0, 264503301)])).flagO = always := by decide

/-! ### Reset and runs -/

theorem witness_ResetValues :
    configWf ready.config = true ∧ (sample { ready with inputs := [rstPulse] }).rst = true := by decide

/-- A run command for a valid and for an invalid address. -/
theorem witness_RunCommandStartsARun :
    ∀ a ∈ [(0 : Int), 1023, 1024, -1],
      let s := { State.reset with inputs := [runPulse a] }
      configWf s.config = true ∧ TakesRunCommand s ∧ fits s.config (sample s).runAddr = true ∧
      (sample (runCommand a (beginEdge s))).rst = false := by
  intro a ha
  refine ⟨rfl, ⟨rfl, by simp [State.reset], rfl⟩, ?_, rfl⟩
  revert a
  decide

theorem witness_RunStartIsIgnoredWhileRunning : ready.runState = .running := rfl

theorem witness_RefusalsOfTheEdge :
    configWf { xlen := some 31, memSize := 1024 } = false ∧
    configWf { xlen := some 32, memSize := 0 } = false ∧
    configWf { xlen := some 32, memSize := 2147483648 } = false ∧
    TakesRunCommand { State.reset with inputs := [runPulse 2147483648] } ∧
    configWf State.reset.config = true ∧ fits State.reset.config 2147483648 = false :=
  ⟨by decide, by decide, by decide, ⟨by decide, by decide, by decide⟩, by decide, by decide⟩

theorem witness_StoppedEngineIsQuiescent :
    let s := { ready with runState := .halted, halted := true, inputs := [stepPulse false, Inputs.quiet] }
    configWf s.config = true ∧ s.runState ≠ .running ∧
      ∀ p ∈ s.inputs, p.rst = false ∧ p.runStart = false := by decide

/-- Three edges under `single_step`, the middle one without its acknowledgment: it waits. -/
theorem witness_SingleSteppedRunFollowsTheFreeRun :
    (∀ p ∈ [stepPulse false, stepPulse false, stepPulse true], p.rst = false ∧ p.runStart = false) ∧
    (∃ t, edges 3 { ready with inputs := [stepPulse false, stepPulse false, stepPulse true] } = some t ∧
      pc t = 2) ∧
    (∀ p ∈ [stepPulse true, stepPulse true], p.singleStep = true → p.stepAck = true) ∧
    ∃ t, edges 2 { ready with inputs := [stepPulse true, stepPulse true] } = some t ∧ pc t = 2 :=
  ⟨by decide, ⟨_, rfl, by decide⟩, by decide, _, rfl, by decide⟩

/-- Halted before, with a HALT at 7: its run from 7 performs one step. -/
def haltsAt7 : State :=
  { running 3 flagP [(1, 5)] [(7, 62914560)] with halted := true, runState := .halted }

theorem witness_RunPerformsAtLeastOneStep :
    Executes (runCommand 7 haltsAt7) .halt (fields always 0 0 0 0) ∧ ∃ u, Run haltsAt7 7 u := by
  refine ⟨⟨62914560, ⟨stepsAt_of (by decide), by decide, by decide⟩, by decide⟩, ?_⟩
  obtain ⟨t, h, ht⟩ :=
    next_of_nextHas (o := step (runCommand 7 haltsAt7)) (p := fun t => t.runState = .halted) (by decide)
  exact ⟨t, .step (by decide) h (.ended (.inl (by simpa using ht)))⟩

theorem witness_RunsEndWellOrFaulted :
    Machine.Inv haltsAt7 ∧ fits haltsAt7.config 7 = true ∧ ∃ u, Run haltsAt7 7 u :=
  ⟨⟨by decide, rfl, by decide, ⟨by decide, by decide, by decide⟩, by decide, by decide, by decide⟩,
    by decide, witness_RunPerformsAtLeastOneStep.2⟩

theorem witness_PlacedWordIsFetched :
    configWf State.reset.config = true ∧ State.reset.mem.wf ∧
    decodeTableWord 32 264503301 = some (.add (fields always 1 0 0 5)) := by decide

theorem witness_EveryEdgeKeepsTheInvariant_and_AdvanceNeverOverflows :
    Machine.Inv ready ∧ Fetches ready 0x0BC40064 (.store (fields always 1 0 0 100)) ∧
    ∃ t, step ready = .next t :=
  ⟨ready_inv, ready_fetches,
    (next_of_nextHas (p := fun _ => true) (by decide)).imp fun _ h => h.1⟩

theorem witness_ReachableStatesMeetTheInvariants :
    Reachable State.reset ∧ ∃ t, memWrite 1023 (-9) State.reset = some t ∧ Reachable t := by
  have h : Reachable State.reset :=
    .afterReset ⟨by decide, ⟨by decide, by decide, by decide⟩, by decide⟩
  exact ⟨h, _, rfl, .load (a := 1023) (v := -9) h (by decide) (by decide) rfl⟩

/-- A start with the flag V, and a step that sets V by a zero divisor: `DIV r2,r1,r0` with r1 = 7. -/
def dividing (xlen : Option Nat) : State :=
  { running 0 flagV [(1, 7)] [(0, 533217280), (1, 0)] with config := { xlen := xlen, memSize := 2 } }

theorem dividing_reference : ReferenceOf (dividing (some 32)) (dividing none) where
  config := rfl
  regs := rfl
  flag := rfl
  halted := rfl
  runState := rfl
  fault := rfl
  trace := rfl
  stepped := rfl
  inputs := rfl
  canonical := by decide
  memory := fun a => by
    obtain h | h : (a = 0 ∨ a = 1) ∨ (a < 0 ∨ 2 ≤ a) := by omega
    · obtain rfl | rfl := h <;> decide
    · have hv : (decide (0 ≤ a) && decide (a < 2)) = false := by
        rw [Bool.and_eq_false_iff, decide_eq_false_iff_not, decide_eq_false_iff_not]; omega
      have h1 : validAddress (dividing (some 32)).config a = false := hv
      have h2 : validAddress (dividing none).config a = false := hv
      rw [memRead, memRead, h1, h2]
      rfl

theorem witness_FiniteWidthFollowsTheReference :
    ReferenceOf (dividing (some 32)) (dividing none) ∧ (∃ t, edges 1 (dividing (some 32)) = some t) ∧
    ∀ j u, j < 1 → edges j (dividing (some 32)) = some u → VOnlyByZeroDivisor u := by
  refine ⟨dividing_reference, ?_, fun j u hj hu op f _ hx _ => ?_⟩
  · obtain ⟨t, h, -⟩ := next_of_nextHas (o := step (dividing (some 32))) (p := fun _ => true) (by decide)
    exact ⟨t, by simp [edges, h]⟩
  · obtain rfl : j = 0 := by omega
    cases hu
    obtain ⟨w, hf, -⟩ := hx
    have hw : memRead (dividing (some 32)) (pc (dividing (some 32))) = some 533217280 := by decide
    obtain rfl : 533217280 = w := Option.some.inj (hw.symm.trans hf.word)
    have hd : decode 533217280 = .ok (.div (fields always 2 1 0 0)) := by decide
    have hi := hd.symm.trans hf.decodes
    cases op <;> cases hi
    exact ⟨rfl, by decide⟩

end Sys2Proof.Tests
end

/-! ## Scope: registers and memory, how a run ends, and the reference configuration -/

namespace Sys2Proof.Machine

/-! ### What one step answers: an equation per case of `step_cases` -/

theorem step_of_reset {s : State} (hc : configWf s.config = true) (hr : (sample s).rst = true) :
    step s = .next (hardwareReset (beginEdge s)) := by
  simp [step, clockEdge, hc, hr]

theorem step_of_runCommand {s : State} (hc : configWf s.config = true) (hr : (sample s).rst = false)
    (hs : s.runState ≠ .running) (hrun : (sample s).runStart = true)
    (hf : fits s.config (sample s).runAddr = true) :
    step s = .next (runCommand (sample s).runAddr (beginEdge s)) := by
  simp [step, clockEdge, betweenRuns, hc, hr, hs, hrun, hf]

theorem step_of_no_command {s : State} (hc : configWf s.config = true)
    (hr : (sample s).rst = false) (hs : s.runState ≠ .running) (hrun : (sample s).runStart = false) :
    step s = .next (beginEdge s) := by
  simp [step, clockEdge, betweenRuns, hc, hr, hs, hrun]

theorem step_of_wait {s : State} (hc : configWf s.config = true) (hr : (sample s).rst = false)
    (hs : s.runState = .running) (hw : waitsForAck (sample s) s = true) :
    step s = .next (beginEdge s) := by
  simp [step, clockEdge, hc, hr, hs, hw]

theorem StepsAt.clockEdge_eq {s : State} (h : StepsAt s) :
    clockEdge s = fetchDecode (begunSilently s) := by
  obtain ⟨hc, hr, hs, hw⟩ := h
  simp only [clockEdge, hc, hr, hs, hw]
  rfl

theorem StepsAt.step_of_invalid_fetch {s : State} (h : StepsAt s) (hm : memRead s (pc s) = none) :
    step s = .next (raise .fetchAddress (pc s) (pc s) (begunSilently s)) := by
  simp [step, h.clockEdge_eq, fetchDecode, hm]

theorem StepsAt.step_of_malformed {s : State} {w : Int} {e : DecodeReject} (h : StepsAt s)
    (hm : memRead s (pc s) = some w) (hd : decode w = .error e) :
    step s = .next (raise .decode w (pc s) (begunSilently s)) := by
  simp [step, h.clockEdge_eq, fetchDecode, hm, hd]

theorem Fetches.step_eq {s : State} {w : Int} {i : Instr} (h : Fetches s w i) :
    step s = exec i (begun w i s) := by
  simp [step, h.steps.clockEdge_eq, fetchDecode, h.word, h.decodes, publish_begunSilently]

/-! ### Registers and memory -/

/-- Settles O15, from the rules for a register read after a write. -/
theorem registerZeroDiscardsWrites : Obligations.RegisterZeroDiscardsWrites := fun s v =>
  ⟨readReg_zero s, writeReg_zero v s, fun _ hr => readReg_writeReg_same hr v s,
    fun _ _ hrq => readReg_writeReg_other hrq v s⟩

theorem validAddress_eq_false_iff {c : Config} {a : Int} :
    validAddress c a = false ↔ a < 0 ∨ (c.memSize : Int) ≤ a := by
  rw [← Bool.not_eq_true, validAddress_iff]
  omega

theorem memWrite_of_valid {s : State} {a : Int} (h : validAddress s.config a = true) (v : Int) :
    memWrite a v s = some { s with mem := store s.mem a.toNat v } :=
  memWrite_eq_some.2 ⟨h, rfl⟩

/-- Settles O16, from the rules for a memory read after a write. -/
theorem memoryReadsWhatWasWritten : Obligations.MemoryReadsWhatWasWritten := by
  intro s a v hm
  constructor
  · intro ha
    have hv : validAddress s.config a = true := validAddress_iff.2 ha
    have hw := memWrite_of_valid hv v
    exact ⟨⟨_, memRead_of_valid hv⟩, _, hw, memRead_memWrite_same hw,
      fun _ hb => memRead_memWrite_other hm hw hb, rfl⟩
  · intro ha
    have hv : validAddress s.config a = false := validAddress_eq_false_iff.2 ha
    exact ⟨memRead_of_invalid hv, memWrite_eq_none.2 hv⟩

/-! ### The invariant: one rule per operation -/

/-- The invariant does not speak of the model's own fields (log entries 7, 8 and 11). -/
theorem Inv.of_environment {s : State} (h : Inv s) (tr : Option TraceEvent) (st : Bool)
    (inp : List Inputs) : Inv { s with trace := tr, stepped := st, inputs := inp } :=
  ⟨h.configOk, h.zeroReads, h.regsFit, h.memOk, h.flagLegal, h.haltedAgrees, h.faultAgrees⟩

theorem Inv.beginEdge {s : State} (h : Inv s) : Inv (beginEdge s) :=
  h.of_environment none s.stepped s.inputs.tail

theorem Inv.begunSilently {s : State} (h : Inv s) : Inv (begunSilently s) :=
  h.of_environment none true s.inputs.tail

theorem Inv.begun {s : State} (h : Inv s) (w : Int) (i : Instr) : Inv (begun w i s) :=
  h.of_environment (some { pc := pc s, word := w, instr := i }) true s.inputs.tail

theorem Inv.writeReg {s : State} (h : Inv s) (r : Reg) {v : Int} (hv : fits s.config v = true) :
    Inv (writeReg r v s) where
  configOk := by simpa using h.configOk
  zeroReads := readReg_zero _
  regsFit := fun q => by
    rw [writeReg_config, readReg_writeReg]
    split
    · exact fits_zero s.config
    · split
      · exact hv
      · exact h.regsFit q
  memOk := by simpa using h.memOk
  flagLegal := by simpa using h.flagLegal
  haltedAgrees := by simpa using h.haltedAgrees
  faultAgrees := by simpa using h.faultAgrees

theorem Inv.advance {s : State} (h : Inv s) (hpc : fits s.config (pc s + 1) = true) :
    Inv (advance s) :=
  h.writeReg pcIndex hpc

theorem Inv.setFlag {s : State} (h : Inv s) {v : Mask} (hv : v ∈ legalFlags) : Inv (setFlag v s) :=
  { h with flagLegal := hv }

theorem Inv.memWrite {s t : State} (h : Inv s) {a v : Int} (hv : fits s.config v = true)
    (hw : memWrite a v s = some t) : Inv t := by
  obtain ⟨ha, rfl⟩ := memWrite_eq_some.1 hw
  have ha' := validAddress_iff.1 ha
  exact { h with memOk := store_memoryOk h.memOk (by omega) hv }

/-- A RUNNING machine has not halted and its latch is empty (R32, R35). -/
theorem Inv.of_running {s : State} (h : Inv s) (hr : s.runState = .running) :
    s.halted = false ∧ s.fault = none := by
  have hh := h.haltedAgrees
  have hf := h.faultAgrees
  rw [hr] at hh hf
  simpa using And.intro hh hf

theorem Inv.raise {s : State} (h : Inv s) (hr : s.runState = .running) (c : FaultCause)
    (info atPc : Int) : Inv (raise c info atPc s) :=
  { h with
    haltedAgrees := by simp [(h.of_running hr).1]
    faultAgrees := by simp }

theorem Inv.haltEffect {s : State} (h : Inv s) (hr : s.runState = .running)
    (hpc : fits s.config (pc s + 1) = true) : Inv (haltEffect s) :=
  { h.advance hpc with
    haltedAgrees := by simp
    faultAgrees := by simp [(h.of_running hr).2] }

theorem Inv.hardwareReset {s : State} (h : Inv s) : Inv (hardwareReset s) where
  configOk := h.configOk
  zeroReads := readReg_zero _
  regsFit := fun r => by simpa using fits_zero s.config
  memOk := h.memOk
  flagLegal := List.mem_cons_self
  haltedAgrees := by simp
  faultAgrees := by simp

theorem Inv.runCommand {s : State} (h : Inv s) {a : Int} (ha : fits s.config a = true) :
    Inv (runCommand a s) :=
  { h.writeReg pcIndex ha with
    haltedAgrees := by simp
    faultAgrees := by simp }

/-! ### The invariant along the instructions, the edges and a run -/

/-- R27: the address after a valid one still fits, since `MEM_SIZE` does (R48). -/
theorem fits_succ_of_valid {c : Config} (hc : configWf c = true) {a : Int}
    (ha : validAddress c a = true) : fits c (a + 1) = true := by
  obtain ⟨_ | n, m⟩ := c
  · rfl
  · have ha' := validAddress_iff.1 ha
    simp only [configWf, Bool.and_eq_true, decide_eq_true_eq] at hc
    rw [fits_width]
    generalize 2 ^ (n - 1) = b at hc ⊢
    simp only at ha'
    omega

theorem validAddress_of_memRead {s : State} {a v : Int} (h : memRead s a = some v) :
    validAddress s.config a = true := by
  by_contra hv
  rw [memRead_of_invalid (by simpa using hv)] at h
  cases h

/-- What is read from a memory that meets the invariant fits (R46). -/
theorem Inv.fits_of_memRead {s : State} (h : Inv s) {a v : Int} (hv : memRead s a = some v) :
    fits s.config v = true := by
  rw [memRead_of_valid (validAddress_of_memRead hv)] at hv
  exact Option.some.inj hv ▸ fits_cellValue h.memOk.valuesFit a.toNat

/-- The advance of a fetched instruction does not overflow (R27). -/
theorem Inv.fits_next_pc {s : State} (h : Inv s) {w : Int} {i : Instr} (hf : Fetches s w i) :
    fits s.config (pc s + 1) = true :=
  fits_succ_of_valid h.configOk (validAddress_of_memRead hf.word)

theorem resultFlags_subset_legalFlags : resultFlags ⊆ legalFlags := by decide

theorem Inv.arithmeticEffect {s : State} (h : Inv s) (hpc : fits s.config (pc s + 1) = true)
    {op : Opcode} (hop : isArithmetic op = true) (f : Fields) : Inv (arithmeticEffect op f s) :=
  ((h.advance hpc).writeReg f.rt (by rw [advance_config]; exact fits_alu hop _ _ _)).setFlag
    (resultFlags_subset_legalFlags (alu_flag_mem s.config op _ _))

theorem Inv.loadEffect {s : State} (h : Inv s) (hr : s.runState = .running)
    (hpc : fits s.config (pc s + 1) = true) (f : Fields) : Inv (loadEffect f s) := by
  rcases loadEffect_cases f s with ⟨v, hv, e⟩ | ⟨-, e⟩ <;> rw [e]
  · exact (h.advance hpc).writeReg f.rt (by simpa using h.fits_of_memRead hv)
  · exact (h.advance hpc).raise (by simpa using hr) _ _ _

theorem Inv.storeEffect {s : State} (h : Inv s) (hr : s.runState = .running)
    (hpc : fits s.config (pc s + 1) = true) (f : Fields) : Inv (storeEffect f s) := by
  rcases storeEffect_cases f s with ⟨-, hw, -⟩ | ⟨-, e⟩
  · exact (h.advance hpc).memWrite ((h.advance hpc).regsFit f.rt) hw
  · rw [e]
    exact (h.advance hpc).raise (by simpa using hr) _ _ _

theorem Inv.effectOf {s : State} (h : Inv s) (hr : s.runState = .running)
    (hpc : fits s.config (pc s + 1) = true) (i : Instr) : Inv (effectOf i s) := by
  cases i with
  | halt => exact h.haltEffect hr hpc
  | load f => exact h.loadEffect hr hpc f
  | store f => exact h.storeEffect hr hpc f
  | add f => exact h.arithmeticEffect hpc rfl f
  | sub f => exact h.arithmeticEffect hpc rfl f
  | mul f => exact h.arithmeticEffect hpc rfl f
  | div f => exact h.arithmeticEffect hpc rfl f

theorem Inv.exec {s t : State} (h : Inv s) (hr : s.runState = .running)
    (hpc : fits s.config (pc s + 1) = true) {i : Instr} (he : exec i s = .next t) : Inv t := by
  rw [exec_eq_predicated] at he
  rcases predicated_cases he with ⟨-, rfl⟩ | ⟨-, rfl⟩
  · exact h.effectOf hr hpc i
  · exact h.advance hpc

/-- R44 as a property of one edge. -/
theorem Inv.step {s t : State} (h : Inv s) (hs : step s = .next t) : Inv t := by
  obtain ⟨-, ⟨-, rfl⟩ | ⟨-, -, -, ha, rfl⟩ | ⟨-, -, -, rfl⟩ | ⟨-, -, -, rfl⟩ | ⟨hst, -, rfl⟩ |
    ⟨w, e, hst, -, -, rfl⟩ | ⟨w, i, hf, he⟩⟩ := step_cases hs
  · -- reset
    exact h.beginEdge.hardwareReset
  · -- run command
    exact h.beginEdge.runCommand ha
  · -- no command outside a run
    exact h.beginEdge
  · -- single-step wait
    exact h.beginEdge
  · -- invalid fetch address
    exact h.begunSilently.raise hst.running _ _ _
  · -- malformed word
    exact h.begunSilently.raise hst.running _ _ _
  · -- the instruction fetched
    exact (h.begun w i).exec hf.steps.running (h.fits_next_pc hf) he

/-- The run loop keeps the invariant and stops only where the run has ended (R157, R160). -/
theorem RunsTo.inv_and_ended {s u : State} (hrun : RunsTo s u) (h : Inv s) : Inv u ∧ Ended u := by
  induction hrun with
  | ended he => exact ⟨h, he⟩
  | step _ hs _ ih => exact ih (h.step hs)

/-- Under the invariant the run-state of an ended run decides the halted boolean (R32) and the latch
(R35). -/
theorem Inv.goodEnd_or_faulted {u : State} (h : Inv u) (he : Ended u) :
    GoodEnd u ∨ (u.runState = .faulted ∧ u.halted = false ∧ ∃ r, u.fault = some r) := by
  have hh := h.haltedAgrees
  have hf := h.faultAgrees
  rcases he with he | he <;> rw [he] at hh hf
  · exact .inl ⟨he, hh.2 rfl, by simpa using hf⟩
  · exact .inr ⟨he, by simpa using hh, Option.isSome_iff_exists.1 (hf.2 rfl)⟩

/-- Settles O54: the run command and every edge keep the invariant, which decides how a run can end. -/
theorem runsEndWellOrFaulted : Obligations.RunsEndWellOrFaulted := by
  intro s u a h ha hrun
  obtain ⟨hu, he⟩ := RunsTo.inv_and_ended hrun (h.runCommand ha)
  exact ⟨hu, hu.goodEnd_or_faulted he⟩

/-! ### The reference configuration: one simulation rule per operation -/

section Reference

variable {s s' : State}

theorem ReferenceOf.readReg (h : ReferenceOf s s') (r : Reg) : readReg s' r = readReg s r :=
  readReg_congr h.regs r

theorem ReferenceOf.pc (h : ReferenceOf s s') : pc s' = pc s := h.readReg pcIndex

theorem ReferenceOf.sample (h : ReferenceOf s s') : sample s' = sample s := by
  simp only [Machine.sample, h.inputs]

theorem ReferenceOf.fits (h : ReferenceOf s s') (v : Int) : fits s'.config v = true := by
  rw [h.config, fits_unbounded]

theorem ReferenceOf.configWf (h : ReferenceOf s s') (hc : configWf s.config = true) :
    configWf s'.config = true := by
  simp only [Machine.configWf, Bool.and_eq_true] at hc
  simp [Machine.configWf, h.config, of_decide_eq_true hc.1]

theorem ReferenceOf.waitsForAck (h : ReferenceOf s s') (p : Inputs) :
    waitsForAck p s' = waitsForAck p s := by
  simp only [Machine.waitsForAck, h.stepped]

theorem ReferenceOf.stepsAt (h : ReferenceOf s s') (hs : StepsAt s) : StepsAt s' where
  configOk := h.configWf hs.configOk
  notReset := h.sample ▸ hs.notReset
  running := h.runState ▸ hs.running
  notWaiting := by rw [h.sample, h.waitsForAck, hs.notWaiting]

theorem ReferenceOf.memRead_pc (h : ReferenceOf s s') :
    memRead s' (Machine.pc s') = memRead s (Machine.pc s) := by
  rw [h.pc, h.memory]

theorem ReferenceOf.fetches (h : ReferenceOf s s') {w : Int} {i : Instr} (hf : Fetches s w i) :
    Fetches s' w i where
  steps := h.stepsAt hf.steps
  word := h.memRead_pc.trans hf.word
  decodes := hf.decodes

theorem ReferenceOf.beginEdge (h : ReferenceOf s s') : ReferenceOf (beginEdge s) (beginEdge s') :=
  { h with trace := rfl, inputs := congrArg List.tail h.inputs }

theorem ReferenceOf.begunSilently (h : ReferenceOf s s') :
    ReferenceOf (begunSilently s) (begunSilently s') :=
  { h with trace := rfl, stepped := rfl, inputs := congrArg List.tail h.inputs }

theorem ReferenceOf.begun (h : ReferenceOf s s') (w : Int) (i : Instr) :
    ReferenceOf (begun w i s) (begun w i s') :=
  { h with
    trace := by simp [h.pc]
    stepped := rfl
    inputs := congrArg List.tail h.inputs }

/-- A write does the same to the same register cells. -/
theorem writeReg_regs_congr (h : s'.regs = s.regs) (r : Reg) (v : Int) :
    (writeReg r v s').regs = (writeReg r v s).regs := by
  unfold writeReg
  split <;> simp [h]

theorem ReferenceOf.writeReg (h : ReferenceOf s s') (r : Reg) (v : Int) :
    ReferenceOf (writeReg r v s) (writeReg r v s') where
  config := by simpa using h.config
  regs := writeReg_regs_congr h.regs r v
  flag := by simpa using h.flag
  halted := by simpa using h.halted
  runState := by simpa using h.runState
  fault := by simpa using h.fault
  trace := by simpa using h.trace
  stepped := by simpa using h.stepped
  inputs := by simpa using h.inputs
  memory := fun a => by
    have frame : ∀ u : State, memRead (Machine.writeReg r v u) a = memRead u a := fun u =>
      memRead_congr (writeReg_config r v u) (writeReg_mem r v u) a
    rw [frame, frame, h.memory]
  canonical := by simpa using h.canonical

theorem ReferenceOf.advance (h : ReferenceOf s s') : ReferenceOf (advance s) (advance s') := by
  unfold Machine.advance
  rw [h.pc]
  exact h.writeReg pcIndex _

theorem ReferenceOf.setFlag (h : ReferenceOf s s') (v : Mask) :
    ReferenceOf (setFlag v s) (setFlag v s') :=
  { h with flag := rfl }

theorem ReferenceOf.raise (h : ReferenceOf s s') (c : FaultCause) (info atPc : Int) :
    ReferenceOf (raise c info atPc s) (raise c info atPc s') :=
  { h with runState := rfl, fault := rfl }

theorem ReferenceOf.hardwareReset (h : ReferenceOf s s') :
    ReferenceOf (hardwareReset s) (hardwareReset s') :=
  { h with
    regs := rfl, flag := rfl, halted := rfl, runState := rfl, fault := rfl, trace := rfl
    stepped := rfl }

theorem ReferenceOf.runCommand (h : ReferenceOf s s') (a : Int) :
    ReferenceOf (runCommand a s) (runCommand a s') :=
  { h.writeReg pcIndex a with halted := rfl, runState := rfl, fault := rfl, stepped := rfl }

theorem ReferenceOf.haltEffect (h : ReferenceOf s s') : ReferenceOf (haltEffect s) (haltEffect s') :=
  { h.advance with halted := rfl, runState := rfl }

theorem ReferenceOf.validAddress (h : ReferenceOf s s') (a : Int) :
    validAddress s'.config a = validAddress s.config a := by
  rw [h.config]
  rfl

/-- The same write to both memories: the written cell reads the value in both, the others as before. -/
theorem ReferenceOf.memWrite {t t' : State} (h : ReferenceOf s s') {a v : Int}
    (hw : memWrite a v s = some t) (hw' : memWrite a v s' = some t') : ReferenceOf t t' := by
  have hmem : ∀ b, memRead t' b = memRead t b := by
    intro b
    by_cases hb : b = a
    · rw [hb, memRead_memWrite_same hw, memRead_memWrite_same hw']
    · rw [memRead_memWrite_other h.canonical.1 hw hb, memRead_memWrite_other h.canonical.2 hw' hb,
        h.memory]
  obtain ⟨-, rfl⟩ := memWrite_eq_some.1 hw
  obtain ⟨-, rfl⟩ := memWrite_eq_some.1 hw'
  exact { h with
    memory := hmem
    canonical := ⟨store_wf h.canonical.1 _ _, store_wf h.canonical.2 _ _⟩ }

theorem ReferenceOf.loadAddress (h : ReferenceOf s s') (f : Fields) :
    loadAddress f s' = loadAddress f s := by
  rw [loadAddress_eq, loadAddress_eq, h.readReg, h.readReg]

theorem ReferenceOf.storeAddress (h : ReferenceOf s s') (f : Fields) :
    storeAddress f s' = storeAddress f s := by
  rw [storeAddress_eq, storeAddress_eq, h.readReg, h.readReg]

/-- A LOAD reads the same cell, or faults alike, since both machines read the same everywhere. -/
theorem ReferenceOf.loadEffect (h : ReferenceOf s s') (f : Fields) :
    ReferenceOf (loadEffect f s) (loadEffect f s') := by
  unfold Machine.loadEffect
  rw [h.loadAddress, h.advance.memory, h.pc]
  cases memRead (Machine.advance s) (Machine.loadAddress f s) with
  | none => exact h.advance.raise _ _ _
  | some v => exact h.advance.writeReg f.rt v

/-- A STORE writes the same value to the same cell, or faults alike. -/
theorem ReferenceOf.storeEffect (h : ReferenceOf s s') (f : Fields) :
    ReferenceOf (storeEffect f s) (storeEffect f s') := by
  rcases storeEffect_cases f s with ⟨ha, hw, -⟩ | ⟨ha, e⟩ <;>
    rcases storeEffect_cases f s' with ⟨ha', hw', -⟩ | ⟨ha', e'⟩ <;>
    rw [h.storeAddress, h.validAddress, ha] at ha'
  · rw [h.storeAddress, h.advance.readReg] at hw'
    exact h.advance.memWrite hw hw'
  · cases ha'
  · cases ha'
  · rw [e, e', h.storeAddress, h.pc]
    exact h.advance.raise _ _ _

/-! ### The ALU of the reference configuration -/

/-- Where V comes only from a zero divisor, the width makes no difference to an arithmetic answer (R9):
every exact result fits. -/
theorem alu_unbounded {c : Config} {op : Opcode} {l r : Int}
    (hv : (alu c op l r).2 = flagV → op = .div ∧ r = 0) :
    alu { c with xlen := none } op l r = alu c op l r := by
  rcases alu_cases c op l r with ⟨-, e⟩ | ⟨hf, e⟩
  · obtain ⟨rfl, rfl⟩ := hv (by rw [e])
    rfl
  · have hz : (decide (op = .div) && decide (r = 0)) = false := (Bool.or_eq_false_iff.1 hf).1
    have hf' : arithmeticFault { c with xlen := none } op l r = false := by
      simp [arithmeticFault, hz]
    rw [e, alu, hf']
    rfl

/-- An answer of the ALU that is V only by a zero divisor. -/
def AluExact (op : Opcode) (f : Fields) (s : State) : Prop :=
  (aluOf op f s).2 = flagV → op = .div ∧ rightOperand f s = 0

theorem ReferenceOf.aluOf (h : ReferenceOf s s') {op : Opcode} {f : Fields} (hv : AluExact op f s) :
    aluOf op f s' = aluOf op f s := by
  unfold Machine.aluOf leftOperand rightOperand
  rw [h.config, h.readReg, h.readReg]
  exact alu_unbounded hv

theorem ReferenceOf.arithmeticEffect (h : ReferenceOf s s') {op : Opcode} {f : Fields}
    (hv : AluExact op f s) : ReferenceOf (arithmeticEffect op f s) (arithmeticEffect op f s') := by
  unfold Machine.arithmeticEffect
  rw [h.aluOf hv]
  exact (h.advance.writeReg f.rt _).setFlag _

theorem ReferenceOf.effectOf (h : ReferenceOf s s') {i : Instr}
    (hv : isArithmetic i.op = true → AluExact i.op i.fields s) :
    ReferenceOf (effectOf i s) (effectOf i s') := by
  cases i with
  | halt => exact h.haltEffect
  | load f => exact h.loadEffect f
  | store f => exact h.storeEffect f
  | add f => exact h.arithmeticEffect (hv rfl)
  | sub f => exact h.arithmeticEffect (hv rfl)
  | mul f => exact h.arithmeticEffect (hv rfl)
  | div f => exact h.arithmeticEffect (hv rfl)

theorem ReferenceOf.exec {t : State} (h : ReferenceOf s s') {i : Instr}
    (hv : satisfied s.flag i.fields.cond = true → isArithmetic i.op = true → AluExact i.op i.fields s)
    (he : exec i s = .next t) : ∃ t', exec i s' = .next t' ∧ ReferenceOf t t' := by
  rw [exec_eq_predicated] at he ⊢
  rcases predicated_cases he with ⟨hsat, rfl⟩ | ⟨hskip, rfl⟩
  · exact ⟨_, predicated_satisfied (h.flag ▸ hsat), h.effectOf (hv hsat)⟩
  · exact ⟨_, predicated_skipped (h.flag ▸ hskip), h.advance⟩

/-! ### The simulation along the edges -/

theorem make_op_fields (i : Instr) : Instr.make i.op i.fields = i := by cases i <;> rfl

/-- What the premise of R9 says of the instruction an edge fetches. -/
theorem VOnlyByZeroDivisor.aluExact (hv : VOnlyByZeroDivisor s) {w : Int} {i : Instr}
    (hf : Fetches s w i) (hsat : satisfied s.flag i.fields.cond = true)
    (hop : isArithmetic i.op = true) : AluExact i.op i.fields (begun w i s) :=
  hv i.op i.fields hop ⟨w, (make_op_fields i).symm ▸ hf, hsat⟩

/-- One edge of the finite machine is one edge of the reference (R9). -/
theorem ReferenceOf.step {t : State} (h : ReferenceOf s s') (hv : VOnlyByZeroDivisor s)
    (hs : step s = .next t) : ∃ t', step s' = .next t' ∧ ReferenceOf t t' := by
  have hsmp := h.sample
  obtain ⟨hc, ⟨hr, rfl⟩ | ⟨hr, hrs, hgo, -, rfl⟩ | ⟨hr, hrs, hgo, rfl⟩ | ⟨hr, hrs, hw, rfl⟩ |
    ⟨hst, hm, rfl⟩ | ⟨w, e, hst, hm, hd, rfl⟩ | ⟨w, i, hf, he⟩⟩ := step_cases hs
  · -- reset
    exact ⟨_, step_of_reset (h.configWf hc) (hsmp ▸ hr), h.beginEdge.hardwareReset⟩
  · -- run command
    refine ⟨_, step_of_runCommand (h.configWf hc) (hsmp ▸ hr) (h.runState ▸ hrs) (hsmp ▸ hgo)
      (h.fits _), ?_⟩
    rw [hsmp]
    exact h.beginEdge.runCommand _
  · -- no command outside a run
    exact ⟨_, step_of_no_command (h.configWf hc) (hsmp ▸ hr) (h.runState ▸ hrs) (hsmp ▸ hgo),
      h.beginEdge⟩
  · -- single-step wait
    exact ⟨_, step_of_wait (h.configWf hc) (hsmp ▸ hr) (h.runState ▸ hrs)
      (by rw [hsmp, h.waitsForAck, hw]), h.beginEdge⟩
  · -- invalid fetch address
    refine ⟨_, (h.stepsAt hst).step_of_invalid_fetch (h.memRead_pc.trans hm), ?_⟩
    rw [h.pc]
    exact h.begunSilently.raise _ _ _
  · -- malformed word
    refine ⟨_, (h.stepsAt hst).step_of_malformed (h.memRead_pc.trans hm) hd, ?_⟩
    rw [h.pc]
    exact h.begunSilently.raise _ _ _
  · -- the instruction fetched
    rw [(h.fetches hf).step_eq]
    exact (h.begun w i).exec (hv.aluExact hf) he

end Reference

theorem edges_succ_of_step {s t : State} (k : Nat) (h : step s = .next t) :
    edges (k + 1) s = edges k t := by
  rw [edges, h]

/-- The first of several edges that are not refused is one. -/
theorem step_of_edges_succ {k : Nat} {s u : State} (h : edges (k + 1) s = some u) :
    ∃ t, step s = .next t ∧ edges k t = some u := by
  rw [edges] at h
  split at h
  · next t ht => exact ⟨t, ht, h⟩
  · cases h
  · cases h

/-- Settles O60, by induction on the number of edges: each is one edge of the reference machine. -/
theorem finiteWidthFollowsTheReference : Obligations.FiniteWidthFollowsTheReference := by
  intro k
  induction k with
  | zero =>
    intro s s' t href ht _
    obtain rfl : s = t := Option.some.inj ht
    exact ⟨s', rfl, href⟩
  | succ k ih =>
    intro s s' t href ht hv
    obtain ⟨u, hu, hut⟩ := step_of_edges_succ ht
    obtain ⟨u', hu', href'⟩ := href.step (hv 0 s (Nat.succ_pos k) rfl) hu
    obtain ⟨t', ht', hreft⟩ := ih u u' t href' hut fun j x hj hx =>
      hv (j + 1) x (Nat.succ_lt_succ hj) ((edges_succ_of_step j hu).trans hx)
    exact ⟨t', (edges_succ_of_step k hu').trans ht', hreft⟩

end Sys2Proof.Machine

/-! ## State: the invariant along every edge, who writes each control field, the status outputs, reset -/

namespace Sys2Proof.Machine

/-! ### The invariant in every reachable state -/

/-- Settles O56, by the rule of the invariant for one edge. -/
theorem everyEdgeKeepsTheInvariant : Obligations.EveryEdgeKeepsTheInvariant :=
  fun _ _ h hs => h.step hs

/-- Hardware reset gives the invariant from any registers, flag, run-state and latch: it sets all but
the configuration and the memory (R41). -/
theorem inv_hardwareReset {s : State} (hc : configWf s.config = true)
    (hm : MemoryOk s.config s.mem) : Inv (hardwareReset s) where
  configOk := hc
  zeroReads := readReg_zero _
  regsFit := fun r => by simpa using fits_zero s.config
  memOk := hm
  flagLegal := List.mem_cons_self
  haltedAgrees := by simp
  faultAgrees := by simp

theorem AfterReset.inv {s : State} (h : AfterReset s) : Inv s :=
  h.isReset ▸ inv_hardwareReset h.configOk h.memOk

theorem Reachable.inv {s : State} (h : Reachable s) : Inv s := by
  induction h with
  | afterReset h => exact h.inv
  | edge _ hs ih => exact ih.step hs
  | load _ _ hv hw ih => exact ih.memWrite hv hw

theorem mem_legalFlags {m : Mask} :
    m ∈ legalFlags ↔ m = always ∨ m = flagM ∨ m = flagZ ∨ m = flagP ∨ m = flagV := by
  simp [legalFlags]

/-- Settles O58: every reachable state meets the invariant, by induction on how it is reached. -/
theorem reachableStatesMeetTheInvariants : Obligations.ReachableStatesMeetTheInvariants := by
  intro s hs
  have h := hs.inv
  exact ⟨h.zeroReads, h.regsFit, fun _ _ hv => h.fits_of_memRead hv, mem_legalFlags.1 h.flagLegal,
    h.haltedAgrees, Option.isSome_iff_ne_none.symm.trans h.faultAgrees⟩

/-- Settles O59: the word was fetched at a valid address, and the edge keeps the invariant. -/
theorem advanceNeverOverflows : Obligations.AdvanceNeverOverflows :=
  fun _ _ _ _ h hf hs => ⟨h.fits_next_pc hf, (h.step hs).regsFit pcIndex⟩

theorem memoryOk_nil (c : Config) : MemoryOk c [] where
  canonical := List.Pairwise.nil
  inRange := fun _ he => nomatch he
  valuesFit := fun _ he => nomatch he

theorem afterReset_reset : AfterReset State.reset where
  configOk := by decide
  memOk := memoryOk_nil _
  isReset := rfl

/-- Settles O57: the state the model starts from is one after a reset. -/
theorem resetMeetsTheInvariant : Obligations.ResetMeetsTheInvariant := afterReset_reset.inv

/-! ### What an effect does to the flag, the halted boolean, the run-state and the latch -/

@[simp] theorem make_op (op : Opcode) (f : Fields) : (Instr.make op f).op = op := by cases op <;> rfl

@[simp] theorem make_fields (op : Opcode) (f : Fields) : (Instr.make op f).fields = f := by
  cases op <;> rfl

theorem effectOf_make_arithmetic {op : Opcode} (hop : isArithmetic op = true) (f : Fields)
    (s : State) : effectOf (Instr.make op f) s = arithmeticEffect op f s := by
  cases op with
  | add | sub | mul | div => rfl
  | halt | load | store => cases hop

@[simp] theorem loadEffect_flag (f : Fields) (s : State) : (loadEffect f s).flag = s.flag := by
  rcases loadEffect_cases f s with ⟨v, -, e⟩ | ⟨-, e⟩ <;> simp [e]

@[simp] theorem storeEffect_flag (f : Fields) (s : State) : (storeEffect f s).flag = s.flag := by
  rcases storeEffect_cases f s with ⟨-, -, e⟩ | ⟨-, e⟩ <;> simp [e]

/-- Only arithmetic writes the flag (R30, R97). -/
theorem effectOf_flag_of_not_arithmetic {i : Instr} (hop : isArithmetic i.op = false) (s : State) :
    (effectOf i s).flag = s.flag := by
  cases i with
  | halt f => exact haltEffect_flag s
  | load f => exact loadEffect_flag f s
  | store f => exact storeEffect_flag f s
  | add f | sub f | mul f | div f => cases hop

theorem validAddress_of_memRead_eq_none {s : State} {a : Int} (h : memRead s a = none) :
    validAddress s.config a = false := by
  by_contra hv
  rw [memRead_of_valid (by simpa using hv)] at h
  cases h

theorem sameControl_advance (s : State) : SameControl s (advance s) :=
  ⟨advance_halted s, advance_runState s, advance_fault s⟩

theorem sameControl_loadEffect {f : Fields} {s : State}
    (h : validAddress s.config (loadAddress f s) = true) : SameControl s (loadEffect f s) := by
  rcases loadEffect_cases f s with ⟨v, -, e⟩ | ⟨hm, -⟩
  · rw [e]; exact ⟨by simp, by simp, by simp⟩
  · rw [memRead_of_valid h] at hm; cases hm

theorem sameControl_storeEffect {f : Fields} {s : State}
    (h : validAddress s.config (storeAddress f s) = true) : SameControl s (storeEffect f s) := by
  rcases storeEffect_cases f s with ⟨-, -, e⟩ | ⟨hv, -⟩
  · rw [e]; exact ⟨by simp, by simp, by simp⟩
  · rw [h] at hv; cases hv

theorem sameControl_arithmeticEffect (op : Opcode) (f : Fields) (s : State) :
    SameControl s (arithmeticEffect op f s) :=
  have ⟨_, _, hc, _⟩ := arithmeticEffect_frame op f s
  hc

theorem loadEffect_of_invalid {f : Fields} {s : State}
    (h : validAddress s.config (loadAddress f s) = false) :
    loadEffect f s = raise .loadAddress (loadAddress f s) (pc s) (advance s) := by
  rcases loadEffect_cases f s with ⟨v, hv, -⟩ | ⟨-, e⟩
  · rw [memRead_of_invalid h] at hv; cases hv
  · exact e

theorem storeEffect_of_invalid {f : Fields} {s : State}
    (h : validAddress s.config (storeAddress f s) = false) :
    storeEffect f s = raise .storeAddress (storeAddress f s) (pc s) (advance s) := by
  rcases storeEffect_cases f s with ⟨hv, -⟩ | ⟨-, e⟩
  · rw [h] at hv; cases hv
  · exact e

/-! ### What an edge of each kind leads to -/

section Edge

variable {s t : State}

/-- An instruction executed under a satisfied predicate leaves its effect. -/
theorem Fetches.step_of_satisfied {w : Int} {i : Instr} (hf : Fetches s w i)
    (hsat : satisfied s.flag i.fields.cond = true) : step s = .next (effectOf i (begun w i s)) := by
  rw [hf.step_eq, exec_eq_predicated]
  exact predicated_satisfied hsat

theorem Executes.step_eq {op : Opcode} {f : Fields} (h : Executes s op f) :
    ∃ w, step s = .next (effectOf (Instr.make op f) (begun w (Instr.make op f) s)) := by
  obtain ⟨w, hf, hsat⟩ := h
  exact ⟨w, hf.step_of_satisfied (by rwa [make_fields])⟩

theorem Fetches.executes {w : Int} {i : Instr} (hf : Fetches s w i)
    (hsat : satisfied s.flag i.fields.cond = true) : Executes s i.op i.fields :=
  ⟨w, (make_op_fields i).symm ▸ hf, hsat⟩

theorem eq_hardwareReset_of_step (h : step s = .next t) (hr : (sample s).rst = true) :
    t = hardwareReset (beginEdge s) := by
  rw [step_of_reset (step_cases h).1 hr] at h
  cases h
  rfl

/-- Of the kinds of edges only the run command does not contradict its premises. -/
theorem TakesRunCommand.eq_runCommand (hrun : TakesRunCommand s) (h : step s = .next t) :
    t = runCommand (sample s).runAddr (beginEdge s) := by
  obtain ⟨hr, hs, hst⟩ := hrun
  obtain ⟨-, ⟨hr', -⟩ | ⟨-, -, -, -, e⟩ | ⟨-, -, hst', -⟩ | ⟨-, hs', -⟩ | ⟨hsteps, -⟩ |
    ⟨_, _, hsteps, -⟩ | ⟨_, _, hf, -⟩⟩ := step_cases h
  · cases hr.symm.trans hr'
  · exact e
  · cases hst.symm.trans hst'
  · exact absurd hs' hs
  · exact absurd hsteps.running hs
  · exact absurd hsteps.running hs
  · exact absurd hf.steps.running hs

theorem Executes.flag_eq {op : Opcode} {f : Fields} (hx : Executes s op f)
    (hop : isArithmetic op = true) (h : step s = .next t) : t.flag = (aluOf op f s).2 := by
  obtain ⟨w, e⟩ := hx.step_eq
  rw [e, effectOf_make_arithmetic hop] at h
  cases h
  rfl

/-- An executed HALT (R123). -/
theorem Executes.halts {f : Fields} (hx : Executes s .halt f) (h : step s = .next t) :
    t.halted = true ∧ t.runState = .halted ∧ t.fault = s.fault := by
  obtain ⟨w, e⟩ := hx.step_eq
  cases e.symm.trans h
  exact ⟨rfl, rfl, haltEffect_fault _⟩

/-- Every fault is entered by `raise`, on a state with the control fields from before the edge (R140). -/
theorem FaultsAt.step_eq {c : FaultCause} {info : Int} (hx : FaultsAt s c info) :
    ∃ u, step s = .next (raise c info (pc s) u) ∧ SameControl s u := by
  cases hx with
  | fetch hst hv =>
    exact ⟨_, hst.step_of_invalid_fetch (memRead_of_invalid hv), rfl, rfl, rfl⟩
  | word hst hm hd => exact ⟨_, hst.step_of_malformed hm hd, rfl, rfl, rfl⟩
  | @load w f hf hsat hv =>
    refine ⟨_, (hf.step_of_satisfied hsat).trans (congrArg _ (loadEffect_of_invalid hv)), ?_⟩
    exact ⟨by simp, by simp, by simp⟩
  | @store w f hf hsat hv =>
    refine ⟨_, (hf.step_of_satisfied hsat).trans (congrArg _ (storeEffect_of_invalid hv)), ?_⟩
    exact ⟨by simp, by simp, by simp⟩

theorem FaultsAt.faults {c : FaultCause} {info : Int} (hx : FaultsAt s c info)
    (h : step s = .next t) :
    t.halted = s.halted ∧ t.runState = .faulted ∧
      t.fault = some { cause := c, info := info, atPc := pc s } := by
  obtain ⟨u, e, hu⟩ := hx.step_eq
  cases e.symm.trans h
  exact ⟨hu.halted, rfl, rfl⟩

/-- An effect that is neither HALT's nor a fault at the data address leaves the control fields. -/
theorem Fetches.sameControl_effectOf {w : Int} {i : Instr} (hf : Fetches s w i)
    (hsat : satisfied s.flag i.fields.cond = true) (hhalt : ∀ f, ¬ Executes s .halt f)
    (hfault : ∀ c info, ¬ FaultsAt s c info) : SameControl (begun w i s) (effectOf i (begun w i s)) := by
  cases i with
  | halt f => exact absurd (hf.executes hsat) (hhalt f)
  | load f =>
    refine sameControl_loadEffect (Bool.of_not_eq_false fun hv => ?_)
    exact hfault _ _ (.load hf hsat hv)
  | store f =>
    refine sameControl_storeEffect (Bool.of_not_eq_false fun hv => ?_)
    exact hfault _ _ (.store hf hsat hv)
  | add f | sub f | mul f | div f => exact sameControl_arithmeticEffect _ f _

/-- Every edge without a reset, a run command, an executed HALT or a fault leaves the control fields
(R32, R33, R35). -/
theorem sameControl_of_step (h : step s = .next t) (hr : (sample s).rst = false)
    (hrun : ¬ TakesRunCommand s) (hhalt : ∀ f, ¬ Executes s .halt f)
    (hfault : ∀ c info, ¬ FaultsAt s c info) : SameControl s t := by
  obtain ⟨-, ⟨hr', -⟩ | ⟨-, hs, hst, -⟩ | ⟨-, -, -, rfl⟩ | ⟨-, -, -, rfl⟩ | ⟨hst, hm, -⟩ |
    ⟨w, e, hst, hm, hd, -⟩ | ⟨w, i, hf, he⟩⟩ := step_cases h
  · cases hr.symm.trans hr'
  · exact absurd ⟨hr, hs, hst⟩ hrun
  · exact ⟨rfl, rfl, rfl⟩
  · exact ⟨rfl, rfl, rfl⟩
  · exact absurd (.fetch hst (validAddress_of_memRead_eq_none hm)) (hfault _ _)
  · exact absurd (.word hst hm hd) (hfault _ _)
  · rw [exec_eq_predicated] at he
    have hbegun : SameControl (begun w i s) t := by
      rcases predicated_cases he with ⟨hsat, rfl⟩ | ⟨-, rfl⟩
      · exact hf.sameControl_effectOf hsat hhalt hfault
      · exact sameControl_advance _
    exact ⟨hbegun.halted, hbegun.runState, hbegun.fault⟩

/-- Every edge without a reset or an executed arithmetic instruction leaves the flag (R30). -/
theorem flag_of_step (h : step s = .next t) (hr : (sample s).rst = false)
    (harith : ∀ op f, isArithmetic op = true → ¬ Executes s op f) : t.flag = s.flag := by
  obtain ⟨-, ⟨hr', -⟩ | ⟨-, -, -, -, rfl⟩ | ⟨-, -, -, rfl⟩ | ⟨-, -, -, rfl⟩ | ⟨-, -, rfl⟩ |
    ⟨_, _, -, -, -, rfl⟩ | ⟨w, i, hf, he⟩⟩ := step_cases h
  · cases hr.symm.trans hr'
  · -- run command
    exact runCommand_flag _ _
  · -- no command outside a run
    rfl
  · -- single-step wait
    rfl
  · -- invalid fetch address
    rfl
  · -- malformed word
    rfl
  · -- the instruction fetched
    rw [exec_eq_predicated] at he
    rcases predicated_cases he with ⟨hsat, rfl⟩ | ⟨-, rfl⟩
    · have hop : isArithmetic i.op = false :=
        Bool.of_not_eq_true fun hop => harith _ _ hop (hf.executes hsat)
      exact effectOf_flag_of_not_arithmetic hop _
    · exact advance_flag _

/-- The kinds of edges by what they do to the control fields, outside reset and the run command. -/
theorem halt_or_fault_or_sameControl (h : step s = .next t) (hr : (sample s).rst = false)
    (hrun : ¬ TakesRunCommand s) :
    (∃ f, Executes s .halt f) ∨ (∃ c info, FaultsAt s c info) ∨ SameControl s t := by
  by_cases hhalt : ∃ f, Executes s .halt f
  · exact .inl hhalt
  · by_cases hfault : ∃ c info, FaultsAt s c info
    · exact .inr (.inl hfault)
    · simp only [not_exists] at hhalt hfault
      exact .inr (.inr (sameControl_of_step h hr hrun hhalt hfault))

theorem FaultsAt.steps {c : FaultCause} {info : Int} (hx : FaultsAt s c info) : StepsAt s := by
  cases hx with
  | fetch hst => exact hst
  | word hst => exact hst
  | load hf => exact hf.steps
  | store hf => exact hf.steps

end Edge

/-! ### Everything that writes the flag, the halted boolean, the run-state and the latch -/

/-- Settles O39: the flag after each kind of edge. -/
theorem writersOfTheFlag : Obligations.WritersOfTheFlag := by
  intro s t h
  refine ⟨fun hr => ?_, fun op f hop hx => hx.flag_eq hop h, flag_of_step h⟩
  rw [eq_hardwareReset_of_step h hr, hardwareReset_flag]

/-- Settles O40: the halted boolean after each kind of edge; a fault leaves it. -/
theorem writersOfHalted : Obligations.WritersOfHalted := by
  intro s t h
  refine ⟨fun hr => ?_, fun hrun => ?_, fun f hx => ?_, fun hr hrun hhalt => ?_⟩
  · rw [eq_hardwareReset_of_step h hr, hardwareReset_halted]
  · rw [hrun.eq_runCommand h, runCommand_halted]
  · obtain ⟨ht, -, -⟩ := hx.halts h
    exact ht
  · rcases halt_or_fault_or_sameControl h hr hrun with ⟨f, hx⟩ | ⟨c, info, hx⟩ | hc
    · exact absurd hx (hhalt f)
    · obtain ⟨ht, -, -⟩ := hx.faults h
      exact ht
    · exact hc.halted

/-- While RUNNING, the run-state after the edge tells which kind of edge it was (R33). -/
theorem runState_of_running_step {s t : State} (h : step s = .next t) (hr : (sample s).rst = false)
    (hs : s.runState = .running) :
    (t.runState = .halted ↔ ∃ f, Executes s .halt f) ∧
    (t.runState = .faulted ↔ ∃ c info, FaultsAt s c info) ∧
    (t.runState = .halted ∨ t.runState = .faulted ∨ t.runState = .running) := by
  have hhalt : (∃ f, Executes s .halt f) → t.runState = .halted := fun ⟨_, hx⟩ =>
    have ⟨_, ht, _⟩ := hx.halts h
    ht
  have hfault : (∃ c info, FaultsAt s c info) → t.runState = .faulted := fun ⟨_, _, hx⟩ =>
    have ⟨_, ht, _⟩ := hx.faults h
    ht
  rcases halt_or_fault_or_sameControl h hr (fun ⟨_, hs', _⟩ => hs' hs) with hx | hx | hc
  · have ht := hhalt hx
    simpa [ht, hx] using hfault
  · have ht := hfault hx
    simpa [ht, hx] using hhalt
  · have ht := hc.runState.trans hs
    simpa [ht] using And.intro hhalt hfault

/-- Settles O41: the run-state after each kind of edge. -/
theorem runStateTransitions : Obligations.RunStateTransitions := by
  intro s t h
  refine ⟨fun hr => ?_, fun hrun => ?_, fun hr hs hrun => ?_, fun hr hs => ?_⟩
  · rw [eq_hardwareReset_of_step h hr, hardwareReset_runState]
  · rw [hrun.eq_runCommand h, runCommand_runState]
  · rcases halt_or_fault_or_sameControl h hr hrun with ⟨f, w, hf, -⟩ | ⟨c, info, hx⟩ | hc
    · exact absurd hf.steps.running hs
    · exact absurd hx.steps.running hs
    · exact hc.runState
  · obtain ⟨hhalt, hfault, ht⟩ := runState_of_running_step h hr hs
    refine ⟨hhalt, hfault, fun hnh hnf => ?_⟩
    rcases ht with ht | ht | ht
    · obtain ⟨f, hx⟩ := hhalt.1 ht
      exact absurd hx (hnh f)
    · obtain ⟨c, info, hx⟩ := hfault.1 ht
      exact absurd hx (hnf c info)
    · exact ht

/-- Settles O42: the latch after each kind of edge; a HALT leaves it, and a RUNNING machine's is empty. -/
theorem writersOfTheFaultLatch : Obligations.WritersOfTheFaultLatch := by
  intro s t h
  refine ⟨fun hr => ?_, fun hrun => ?_, fun c info hx => ?_, fun hr hrun hfault => ?_,
    fun hinv hst => ?_⟩
  · rw [eq_hardwareReset_of_step h hr, hardwareReset_fault]
  · rw [hrun.eq_runCommand h, runCommand_fault]
  · obtain ⟨-, -, ht⟩ := hx.faults h
    exact ht
  · rcases halt_or_fault_or_sameControl h hr hrun with ⟨f, hx⟩ | ⟨c, info, hx⟩ | hc
    · obtain ⟨-, -, ht⟩ := hx.halts h
      exact ht
    · exact absurd hx (hfault c info)
    · exact hc.fault
  · obtain ⟨-, hlatch⟩ := hinv.of_running hst.running
    exact hlatch

/-! ### The status and trace outputs -/

theorem toNat_causeCode (c : FaultCause) : (BitVec.ofNat 3 (causeCode c)).toNat = causeCode c := by
  cases c <;> rfl

theorem faultCauseOut_of_some {s : State} {r : FaultRecord} (h : s.fault = some r) :
    (faultCauseOut s).toNat = causeCode r.cause := by
  rw [faultCauseOut, h]
  exact toNat_causeCode r.cause

theorem faultCauseOut_of_none {s : State} (h : s.fault = none) : faultCauseOut s = 0#3 := by
  rw [faultCauseOut, h]

theorem causeCode_ne_zero (c : FaultCause) : causeCode c ≠ 0 := by cases c <;> decide

/-- The cause output is 0 with an empty latch only: no cause has code 0 (R40, R134). -/
theorem faultCauseOut_eq_zero_iff (s : State) : faultCauseOut s = 0#3 ↔ s.fault = none := by
  cases h : s.fault with
  | none => simp [faultCauseOut_of_none h]
  | some r =>
    have hc : faultCauseOut s ≠ 0#3 := fun e =>
      causeCode_ne_zero r.cause ((faultCauseOut_of_some h).symm.trans (congrArg BitVec.toNat e))
    simpa using hc

theorem stateCode_inj (r r' : RunState) : stateCode r = stateCode r' ↔ r = r' := by
  cases r <;> cases r' <;> decide

theorem statusPorts_regO_length (s : State) : (statusPorts s).regO.length = 16 := by
  simp [statusPorts]

theorem statusPorts_regO_getElem (s : State) (r : Reg) :
    (statusPorts s).regO[r.val]? = some (readReg s r) := by
  simp [statusPorts]

theorem statusPorts_of_fetches {s : State} {w : Int} {i : Instr} (h : Fetches s w i) :
    (statusPorts s).traceValid = true ∧ (statusPorts s).tracePc = some (pc s) ∧
      (statusPorts s).traceWord = some w ∧ (statusPorts s).traceInstr = some i := by
  simp [statusPorts, tracePort_of_fetches h]

theorem statusPorts_of_not_fetches {s : State} (h : ∀ w i, ¬ Fetches s w i) :
    (statusPorts s).traceValid = false ∧ (statusPorts s).tracePc = none ∧
      (statusPorts s).traceWord = none ∧ (statusPorts s).traceInstr = none := by
  simp [statusPorts, tracePort_of_not_fetches h]

/-- Settles O46: each output from the field it shows, and the agreements from the invariant. -/
theorem statusPortsShowTheState : Obligations.StatusPortsShowTheState := by
  refine ⟨fun s => ⟨rfl, rfl, congrArg stateCode, congrArg stateCode, congrArg stateCode,
    congrArg stateCode, fun h => ?_, fun r h => ?_, statusPorts_regO_length s,
    statusPorts_regO_getElem s, fun _ _ => statusPorts_of_fetches, statusPorts_of_not_fetches⟩,
    fun s h => ⟨faultCauseOut_eq_zero_iff s, ?_, ?_⟩⟩
  · exact ⟨faultCauseOut_of_none h, congrArg (Option.map FaultRecord.info) h,
      congrArg (Option.map FaultRecord.atPc) h⟩
  · exact ⟨faultCauseOut_of_some h, congrArg (Option.map FaultRecord.info) h,
      congrArg (Option.map FaultRecord.atPc) h⟩
  · exact h.haltedAgrees.trans (stateCode_inj _ _).symm
  · calc faultCauseOut s ≠ 0#3
      _ ↔ s.fault ≠ none := not_congr (faultCauseOut_eq_zero_iff s)
      _ ↔ s.runState = .faulted := Option.isSome_iff_ne_none.symm.trans h.faultAgrees
      _ ↔ stateCode s.runState = stateCode .faulted := (stateCode_inj _ _).symm

/-! ### Reset -/

/-- Outside a run no instruction is on the trace outputs. -/
theorem traceValid_of_not_running {s : State} (h : s.runState ≠ .running) :
    (statusPorts s).traceValid = false :=
  (statusPorts_of_not_fetches fun _ _ hf => h hf.steps.running).1

/-- Settles O47: the state the model starts from is the reset of itself, and so is what an edge with `rst`
leads to. -/
theorem resetValues : Obligations.ResetValues := by
  refine ⟨⟨readReg_hardwareReset State.reset, rfl, rfl, rfl, rfl,
    traceValid_of_not_running (by decide)⟩, fun s hc hr => ?_⟩
  exact ⟨_, step_of_reset hc hr, readReg_hardwareReset _, rfl, rfl, rfl, rfl,
    traceValid_of_not_running (by simp), rfl, rfl⟩

end Sys2Proof.Machine

/-! ## Memory: the data port, the store the next fetch sees, the word placed to be fetched, the refusals -/

namespace Sys2Proof.Machine

/-! ### The refusals of an edge -/

theorem step_of_excluded_config {s : State} (hc : configWf s.config = false) :
    step s = .refused .configurationOutOfRange := by
  simp [step, clockEdge, hc]

theorem step_of_unfit_runAddr {s : State} (hc : configWf s.config = true) (hrun : TakesRunCommand s)
    (hf : fits s.config (sample s).runAddr = false) : step s = .refused .runAddressOutOfRange := by
  obtain ⟨hr, hs, hst⟩ := hrun
  simp [step, clockEdge, betweenRuns, hc, hr, hs, hst, hf]

/-- Settles O50: both refusals come before anything the edge does. -/
theorem refusalsOfTheEdge : Obligations.RefusalsOfTheEdge :=
  ⟨fun _ => step_of_excluded_config, fun _ => step_of_unfit_runAddr⟩

/-! ### The word placed to be fetched -/

/-- The address at which `placeFetchWord` places its word. -/
def placeAddress (s : State) : Int := if validAddress s.config (pc s) then pc s else defaultEntry

/-- The default entry is a cell of the memory, since `MEM_SIZE` is at least 1 (R48, R52). -/
theorem validAddress_defaultEntry {c : Config} (hc : configWf c = true) :
    validAddress c defaultEntry = true := by
  obtain ⟨hsize, -⟩ := Bool.and_eq_true_iff.1 hc
  have hpos : 1 ≤ c.memSize := of_decide_eq_true hsize
  exact validAddress_iff.2 ⟨le_rfl, by unfold defaultEntry; omega⟩

theorem validAddress_placeAddress {s : State} (hc : configWf s.config = true) :
    validAddress s.config (placeAddress s) = true := by
  unfold placeAddress
  split
  · assumption
  · exact validAddress_defaultEntry hc

section PlaceFetchWord

variable (s : State) (nbits w : Nat)

/-- The state of `placeFetchWord` before the engine is set to run at the word placed. -/
def withPlacedWord : State :=
  { s with
    mem := store s.mem (placeAddress s).toNat (cellOfPattern nbits w), inputs := quietNext s.inputs }

theorem placeFetchWord_eq : placeFetchWord s nbits w =
    if s.runState = .running then writeReg pcIndex (placeAddress s) (withPlacedWord s nbits w)
    else runCommand (placeAddress s) (withPlacedWord s nbits w) := rfl

@[simp] theorem placeFetchWord_config : (placeFetchWord s nbits w).config = s.config := by
  rw [placeFetchWord_eq]; split <;> simp [withPlacedWord]

@[simp] theorem placeFetchWord_runState : (placeFetchWord s nbits w).runState = .running := by
  rw [placeFetchWord_eq]; split <;> simp [withPlacedWord, *]

@[simp] theorem placeFetchWord_inputs :
    (placeFetchWord s nbits w).inputs = quietNext s.inputs := by
  rw [placeFetchWord_eq]; split <;> simp [withPlacedWord]

@[simp] theorem placeFetchWord_mem : (placeFetchWord s nbits w).mem =
    store s.mem (placeAddress s).toNat (cellOfPattern nbits w) := by
  rw [placeFetchWord_eq]; split <;> simp [withPlacedWord]

@[simp] theorem pc_placeFetchWord : pc (placeFetchWord s nbits w) = placeAddress s := by
  rw [placeFetchWord_eq]; split <;> simp

@[simp] theorem sample_placeFetchWord : sample (placeFetchWord s nbits w) = Inputs.quiet := by
  unfold sample
  rw [placeFetchWord_inputs]
  cases s.inputs <;> rfl

end PlaceFetchWord

/-- A quiet host lets no step wait (R161). -/
theorem waitsForAck_quiet (s : State) : waitsForAck Inputs.quiet s = false := by
  simp [waitsForAck, Inputs.quiet]

theorem stepsAt_placeFetchWord {s : State} (hc : configWf s.config = true) (nbits w : Nat) :
    StepsAt (placeFetchWord s nbits w) where
  configOk := by rwa [placeFetchWord_config]
  notReset := by rw [sample_placeFetchWord]; rfl
  running := placeFetchWord_runState s nbits w
  notWaiting := by rw [sample_placeFetchWord]; exact waitsForAck_quiet _

theorem memRead_pc_placeFetchWord {s : State} (hc : configWf s.config = true) (nbits w : Nat) :
    memRead (placeFetchWord s nbits w) (pc (placeFetchWord s nbits w)) =
      some (cellOfPattern nbits w) := by
  have hv := validAddress_placeAddress hc
  rw [pc_placeFetchWord, memRead_of_valid (by rwa [placeFetchWord_config]), cellValue,
    placeFetchWord_mem, lookup_store_same]
  rfl

theorem decodeTableWord_eq_some {nbits w : Nat} {i : Instr} :
    decodeTableWord nbits w = some i ↔ decode (cellOfPattern nbits w) = .ok i := by
  unfold decodeTableWord
  cases decode (cellOfPattern nbits w) <;> simp

/-- Settles O55: the coming edge steps, and the cell at its program counter holds the word. -/
theorem placedWordIsFetched : Obligations.PlacedWordIsFetched := fun _ w _ hc hi =>
  ⟨cellOfPattern 32 w, stepsAt_placeFetchWord hc 32 w, memRead_pc_placeFetchWord hc 32 w,
    decodeTableWord_eq_some.1 hi⟩

/-! ### What an effect leaves in the memory -/

@[simp] theorem loadEffect_mem (f : Fields) (s : State) : (loadEffect f s).mem = s.mem := by
  rcases loadEffect_cases f s with ⟨v, -, e⟩ | ⟨-, e⟩ <;> simp [e]

@[simp] theorem arithmeticEffect_mem (op : Opcode) (f : Fields) (s : State) :
    (arithmeticEffect op f s).mem = s.mem :=
  have ⟨_, hm, _⟩ := arithmeticEffect_frame op f s
  hm

theorem storeEffect_mem_of_valid {f : Fields} {s : State}
    (h : validAddress s.config (storeAddress f s) = true) : (storeEffect f s).mem =
      store s.mem (storeAddress f s).toNat (readReg (advance s) f.rt) := by
  rcases storeEffect_cases f s with ⟨-, -, e⟩ | ⟨hv, -⟩
  · rw [e]
  · cases h.symm.trans hv

/-- The cell a STORE writes reads as the target register after the advance (R108, R121). -/
theorem memRead_storeEffect {f : Fields} {s : State}
    (h : validAddress s.config (storeAddress f s) = true) :
    memRead (storeEffect f s) (storeAddress f s) =
      some (if f.rt = pcIndex then pc s + 1 else readReg s f.rt) := by
  rcases storeEffect_cases f s with ⟨-, hw, -⟩ | ⟨hv, -⟩
  · rw [memRead_memWrite_same hw, readReg_advance]
  · cases h.symm.trans hv

/-! ### The fetch after a STORE -/

/-- Settles O44: a STORE after which the run goes on had a valid address, so that the cell at the new
program counter reads as the value stored, and the next step fetches there. -/
theorem nextFetchSeesTheStore : Obligations.NextFetchSeesTheStore := by
  intro s t w f hf hsat h hrun hpc hst v
  have hv : validAddress s.config (storeAddress f s) = true := Bool.of_not_eq_false fun hv => by
    obtain ⟨-, hfaulted, -⟩ := (FaultsAt.store hf hsat hv).faults h
    cases hrun.symm.trans hfaulted
  have hread : memRead t (pc t) = some v := by
    cases (hf.step_of_satisfied hsat).symm.trans h
    rw [← hpc]
    exact memRead_storeEffect (s := begun w (.store f) s) hv
  refine ⟨hread, fun j hj => Fetches.step_eq ⟨hst, hread, hj⟩, fun e he => ?_⟩
  exact ⟨_, hst.step_of_malformed hread he, raise_fault _ _ _ _⟩

/-! ### What a data access shows, and what the effect of its instruction does to the memory -/

section DataAccess

variable {i : Instr} {s : State}

theorem dataAccess_of_addr {a : Int} (h : (dataAccess i s).addr = some a) :
    (dataAccess i s).err = some (!validAddress s.config a) ∧
      (dataAccess i s).rdata = memRead s a := by
  cases i with
  | load f | store f => cases h; exact ⟨rfl, rfl⟩
  | halt f | add f | sub f | mul f | div f => cases h

/-- With the write enable the access is that of a STORE to a valid address, and the effect writes the value
on the port there. -/
theorem dataAccess_of_we (h : (dataAccess i s).we = true) :
    (dataAccess i s).err = some false ∧
      ∃ a v, (dataAccess i s).addr = some a ∧ (dataAccess i s).wdata = some v ∧
        validAddress s.config a = true ∧ (effectOf i s).mem = store s.mem a.toNat v := by
  cases i with
  | store f =>
    have hv : validAddress s.config (storeAddress f s) = true := h
    exact ⟨by simp [dataAccess, hv], storeAddress f s, readReg (advance s) f.rt, rfl,
      by simp [dataAccess, hv], hv, storeEffect_mem_of_valid hv⟩
  | load f | halt f | add f | sub f | mul f | div f => cases h

/-- Without the write enable nothing is on the write data, and the effect leaves the memory. -/
theorem dataAccess_of_not_we (h : (dataAccess i s).we = false) :
    (dataAccess i s).wdata = none ∧ (effectOf i s).mem = s.mem := by
  cases i with
  | store f =>
    have hv : validAddress s.config (storeAddress f s) = false := h
    refine ⟨by simp [dataAccess, hv], ?_⟩
    rw [effectOf, storeEffect_of_invalid hv, raise_mem, advance_mem]
  | load f => exact ⟨rfl, loadEffect_mem f s⟩
  | halt f => exact ⟨rfl, haltEffect_mem s⟩
  | add f | sub f | mul f | div f => exact ⟨rfl, arithmeticEffect_mem _ f s⟩

end DataAccess

/-! ### The data port at an edge, and what the edge does to the memory -/

section DataPort

variable {s t : State}

theorem Fetches.dataPort_of_satisfied {w : Int} {i : Instr} (hf : Fetches s w i)
    (hsat : satisfied s.flag i.fields.cond = true) : dataPort s = dataAccess i s := by
  rcases dataPort_cases s with ⟨w', i', hf', -, e⟩ | ⟨hskip, -⟩
  · obtain ⟨-, rfl⟩ := hf.unique hf'
    rw [e, dataAccess_begun]
  · cases hsat.symm.trans (hskip w i hf)

theorem Executes.dataPort_eq {op : Opcode} {f : Fields} (hx : Executes s op f) :
    dataPort s = dataAccess (Instr.make op f) s := by
  obtain ⟨w, hf, hsat⟩ := hx
  exact hf.dataPort_of_satisfied (by rwa [make_fields])

/-- Only an executed LOAD or STORE drives the port (R45, R56). -/
theorem dataPort_of_no_access (h : ∀ f, ¬ Executes s .load f ∧ ¬ Executes s .store f) :
    dataPort s = .idle := by
  rcases dataPort_cases s with ⟨w, i, hf, hsat, e⟩ | ⟨-, e⟩
  · rw [e]
    cases i with
    | load f => exact absurd (hf.executes hsat) (h f).1
    | store f => exact absurd (hf.executes hsat) (h f).2
    | halt f | add f | sub f | mul f | div f => rfl
  · exact e

/-- An edge that executes no instruction leaves the memory. -/
theorem mem_of_step_of_not_executed (h : step s = .next t)
    (hskip : ∀ w i, Fetches s w i → satisfied s.flag i.fields.cond = false) : t.mem = s.mem := by
  obtain ⟨-, ⟨-, rfl⟩ | ⟨-, -, -, -, rfl⟩ | ⟨-, -, -, rfl⟩ | ⟨-, -, -, rfl⟩ | ⟨-, -, rfl⟩ |
    ⟨_, _, -, -, -, rfl⟩ | ⟨w, i, hf, he⟩⟩ := step_cases h
  · -- reset
    rfl
  · -- run command
    exact runCommand_mem _ _
  · -- no command outside a run
    rfl
  · -- single-step wait
    rfl
  · -- invalid fetch address
    rfl
  · -- malformed word
    rfl
  · -- the instruction fetched
    rw [exec_eq_predicated, predicated_skipped (by exact hskip w i hf)] at he
    cases he
    exact advance_mem _

/-- All the data port and the memory can be at an edge: as the instruction executed has them, or as at an
edge that executes none. -/
theorem dataPort_and_mem_cases (h : step s = .next t) :
    (∃ w i, dataPort s = dataAccess i (begun w i s) ∧ t.mem = (effectOf i (begun w i s)).mem) ∨
    (dataPort s = .idle ∧ t.mem = s.mem) := by
  rcases dataPort_cases s with ⟨w, i, hf, hsat, e⟩ | ⟨hskip, e⟩
  · cases (hf.step_of_satisfied hsat).symm.trans h
    exact .inl ⟨w, i, e, rfl⟩
  · exact .inr ⟨e, mem_of_step_of_not_executed h hskip⟩

theorem dataPort_of_addr {a : Int} (ha : (dataPort s).addr = some a) :
    (dataPort s).err = some (!validAddress s.config a) ∧ (dataPort s).rdata = memRead s a := by
  rcases dataPort_cases s with ⟨w, i, -, -, e⟩ | ⟨-, e⟩ <;> rw [e] at ha ⊢
  · exact dataAccess_of_addr ha
  · cases ha

theorem mem_of_step_of_we (h : step s = .next t) (hwe : (dataPort s).we = true) :
    (dataPort s).err = some false ∧
      ∃ a v, (dataPort s).addr = some a ∧ (dataPort s).wdata = some v ∧
        memWrite a v s = some { s with mem := t.mem } := by
  rcases dataPort_and_mem_cases h with ⟨w, i, e, hm⟩ | ⟨e, -⟩ <;> rw [e] at hwe ⊢
  · obtain ⟨herr, a, v, haddr, hdata, hv, hstored⟩ := dataAccess_of_we hwe
    refine ⟨herr, a, v, haddr, hdata, ?_⟩
    rw [memWrite_of_valid (by exact hv), hm, hstored, begun_mem]
  · cases hwe

theorem mem_of_step_of_not_we (h : step s = .next t) (hwe : (dataPort s).we = false) :
    (dataPort s).wdata = none ∧ t.mem = s.mem := by
  rcases dataPort_and_mem_cases h with ⟨w, i, e, hm⟩ | ⟨e, hm⟩ <;> rw [e] at hwe ⊢ <;> rw [hm]
  · exact dataAccess_of_not_we hwe
  · exact ⟨rfl, rfl⟩

end DataPort

/-- Settles O45: the port of an executed LOAD or STORE is its access, and the edge writes what the port
carries. -/
theorem dataPortCarriesTheStore : Obligations.DataPortCarriesTheStore := by
  intro s t h
  refine ⟨fun f hx => ?_, fun f hx => ?_, dataPort_of_no_access, fun a => dataPort_of_addr,
    mem_of_step_of_we h, mem_of_step_of_not_we h⟩ <;>
  · rw [hx.dataPort_eq]
    exact ⟨rfl, rfl⟩

end Sys2Proof.Machine

/-! ## Encoding: the bits of a word, the decoder's inversion, the selection by the mask, assembled lines -/

namespace Sys2Proof.Machine

/-! ### Opcode numbers, bit fields and the sign extension -/

theorem opcodeNumber_lt (op : Opcode) : opcodeNumber op < 8 := by cases op <;> decide

theorem opcodeNumber_ne_four (op : Opcode) : opcodeNumber op ≠ 4 := by cases op <;> decide

@[simp] theorem opcodeOfNumber_opcodeNumber (op : Opcode) :
    opcodeOfNumber (opcodeNumber op) = some op := by cases op <;> rfl

theorem opcodeNumber_of_opcodeOfNumber {n : Nat} {op : Opcode} (h : opcodeOfNumber n = some op) :
    opcodeNumber op = n := by
  unfold opcodeOfNumber at h
  split at h <;> cases h <;> rfl

/-- The integers that number no operation (R67, R73). -/
theorem ne_opcodeNumber_iff {n : Int} :
    (∀ op, n ≠ (opcodeNumber op : Int)) ↔ n < 0 ∨ n = 4 ∨ 8 ≤ n := by
  constructor
  · intro h
    have := h .halt
    have := h .load
    have := h .store
    have := h .add
    have := h .sub
    have := h .mul
    have := h .div
    simp only [opcodeNumber] at *
    omega
  · intro h op
    have := opcodeNumber_lt op
    have := opcodeNumber_ne_four op
    omega

/-- Five adjacent bit fields and the opcode number make up a 31-bit word (R66). -/
theorem word_eq_sum_of_bits {n : Nat} (h : n < 2 ^ 31) :
    n = bits n 30 26 * 2 ^ 26 + bits n 25 22 * 2 ^ 22 + bits n 21 18 * 2 ^ 18
      + bits n 17 14 * 2 ^ 14 + bits n 13 10 * 2 ^ 10 + bits n 9 0 := by
  unfold bits
  omega

theorem bits_lt (n hi lo : Nat) : bits n hi lo < 2 ^ (hi + 1 - lo) :=
  Nat.mod_lt _ (Nat.two_pow_pos _)

/-- `w[hi:lo]` is what a bit vector cuts out. -/
theorem bits_toNat {m : Nat} (b : BitVec m) {hi lo : Nat} (h : lo ≤ hi) :
    bits b.toNat hi lo = (b.extractLsb hi lo).toNat := by
  rw [BitVec.extractLsb_toNat, Nat.shiftRight_eq_div_pow, bits, Nat.sub_add_comm h]

/-- `sext` is the signed reading of a bit vector (R11). -/
theorem sext_toNat {n : Nat} (v : BitVec (n + 1)) : sext (n + 1) v.toNat = v.toInt := by
  have hpow : v.toNat < 2 ^ n ↔ 2 * v.toNat < 2 ^ (n + 1) := by omega
  rw [BitVec.toInt_eq_toNat_cond, sext, Nat.add_sub_cancel]
  simp only [hpow]

/-- Sign extension undoes the encoding of an offset in range (R69). -/
theorem sext_encoded_offset {k : Int} (h : -512 ≤ k ∧ k ≤ 511) :
    sext 10 (k % 2 ^ 10).toNat = k := by
  unfold sext
  split <;> omega

/-- The encoding of an offset undoes sign extension (R69). -/
theorem encoded_offset_sext {v : Nat} (h : v < 2 ^ 10) : (sext 10 v % 2 ^ 10).toNat = v := by
  unfold sext
  split <;> omega

theorem sext_range {v : Nat} (h : v < 2 ^ 10) : -512 ≤ sext 10 v ∧ sext 10 v ≤ 511 := by
  unfold sext
  split <;> omega

theorem Fields.wellFormed_iff {f : Fields} :
    f.wellFormed = true ↔ -512 ≤ f.offset ∧ f.offset ≤ 511 := by
  simp [Fields.wellFormed]

@[simp] theorem val_regField {n hi lo : Nat} :
    (regField n hi lo).val = bits n hi lo % 16 := rfl

/-! ### The fields of an encoded and of a decoded word -/

theorem bits_encodeNat (i : Instr) :
    bits (encodeNat i) 25 22 = i.fields.cond.toNat ∧ bits (encodeNat i) 21 18 = i.fields.rt.val ∧
    bits (encodeNat i) 17 14 = i.fields.rs1.val ∧ bits (encodeNat i) 13 10 = i.fields.rs2.val ∧
    bits (encodeNat i) 9 0 = (i.fields.offset % 2 ^ 10).toNat := by
  have hc := i.fields.cond.isLt
  have ht := i.fields.rt.isLt
  have h1 := i.fields.rs1.isLt
  have h2 := i.fields.rs2.isLt
  unfold bits encodeNat
  omega

/-- An encoded word carries the number of its operation from bit 26 up (R67). -/
theorem encode_div (i : Instr) : encode i / 2 ^ 26 = (opcodeNumber i.op : Int) := by
  have hop := opcodeNumber_lt i.op
  obtain ⟨-, hlt, hnum⟩ := Laws.WordShape.of_number_lt (i := i) (by omega)
  unfold encode bits at *
  omega

theorem decodeFields_encodeNat {i : Instr} (h : i.wellFormed = true) :
    decodeFields (encodeNat i) = i.fields := by
  obtain ⟨hcond, hrt, hrs1, hrs2, hoffset⟩ := bits_encodeNat i
  have hsext : sext 10 (bits (encodeNat i) 9 0) = i.fields.offset := by
    rw [hoffset, sext_encoded_offset (Fields.wellFormed_iff.1 h)]
  simp [decodeFields, regField, hcond, hrt, hrs1, hrs2, hsext]

theorem wellFormed_decodeFields (n : Nat) : (decodeFields n).wellFormed = true :=
  Fields.wellFormed_iff.2 (sext_range (bits_lt n 9 0))

/-- An encoded word is rebuilt from its opcode number and the fields the decoder cuts. -/
theorem encodeNat_of_decodeFields {n : Nat} {i : Instr} (hn : n / 2 ^ 26 = opcodeNumber i.op)
    (hf : decodeFields n = i.fields) : encodeNat i = n := by
  have hop := opcodeNumber_lt i.op
  have hc := bits_lt n 25 22
  have ht := bits_lt n 21 18
  have h1 := bits_lt n 17 14
  have h2 := bits_lt n 13 10
  have hnum : bits n 30 26 = opcodeNumber i.op := by unfold bits; omega
  have hsum := word_eq_sum_of_bits (n := n) (by omega)
  rw [encodeNat, ← hf, ← hnum]
  simp only [decodeFields, encoded_offset_sext (bits_lt n 9 0), BitVec.toNat_ofNat, val_regField,
    Nat.mod_eq_of_lt hc]
  omega

/-- The fields the decoder cuts, as bit vectors cut them (R72). -/
theorem decodeFields_toNat (b : BitVec 32) : decodeFields b.toNat = {
    cond := b.extractLsb 25 22, rt := (b.extractLsb 21 18).toFin, rs1 := (b.extractLsb 17 14).toFin
    rs2 := (b.extractLsb 13 10).toFin, offset := (b.extractLsb 9 0).toInt } := by
  simp (disch := decide) only [decodeFields, regField, bits_toNat, sext_toNat (n := 9)]
  have hreg (v : BitVec 4) : Fin.ofNat 16 v.toNat = v.toFin := Fin.ext (Nat.mod_eq_of_lt v.isLt)
  congr 1
  case e_cond => exact (BitVec.ofNat_toNat 4 _).trans (BitVec.setWidth_eq _)
  all_goals exact hreg _

/-! ### The decoder, inverted once -/

/-- All a word can decode to: the operation its bits 26 and up number, with the fields it cuts. That the
quotient is an opcode number says also that the word lies in `0 .. 2^31 - 1` (R71). -/
theorem decode_eq_ok_iff {w : Int} {i : Instr} :
    decode w = .ok i ↔ w / 2 ^ 26 = (opcodeNumber i.op : Int) ∧ decodeFields w.toNat = i.fields := by
  have hlt := opcodeNumber_lt i.op
  unfold decode
  split
  · next hw =>
    exact ⟨nofun, fun h => by omega⟩
  · next hw =>
    have hb : (bits w.toNat 30 26 : Int) = w / 2 ^ 26 := by unfold bits; omega
    split
    · next hn =>
      refine ⟨nofun, fun ⟨h, _⟩ => ?_⟩
      rw [← hb, Nat.cast_inj] at h
      simp [h] at hn
    · next op hn =>
      have := opcodeNumber_of_opcodeOfNumber hn
      constructor
      · rintro ⟨⟩
        rw [make_op, make_fields, this]
        exact ⟨hb.symm, rfl⟩
      · rintro ⟨h, hf⟩
        rw [← hb, Nat.cast_inj] at h
        simp only [h, opcodeOfNumber_opcodeNumber, Option.some.injEq] at hn
        rw [← hn, hf, make_op_fields]

theorem decode_eq_error_iff {w : Int} :
    (∃ e, decode w = .error e) ↔ ∀ op, w / 2 ^ 26 ≠ (opcodeNumber op : Int) := by
  cases hd : decode w with
  | error e =>
    refine ⟨fun _ op h => ?_, fun _ => ⟨e, rfl⟩⟩
    have hok : decode w = .ok (Instr.make op (decodeFields w.toNat)) :=
      decode_eq_ok_iff.2 ⟨by rwa [make_op], by rw [make_fields]⟩
    exact nomatch hd.symm.trans hok
  | ok i => exact ⟨nofun, fun h => absurd (decode_eq_ok_iff.1 hd).1 (h i.op)⟩

/-- Which operation a word decodes to. -/
theorem decode_eq_ok_make_iff {w : Int} {op : Opcode} :
    (∃ f, decode w = .ok (Instr.make op f)) ↔ w / 2 ^ 26 = (opcodeNumber op : Int) := by
  simp only [decode_eq_ok_iff, make_op, make_fields, exists_and_left, exists_eq', and_true]

/-- The malformed words (R73), by the number above bit 26. -/
theorem malformed_iff {w : Int} :
    (∃ e, decode w = .error e) ↔ w / 2 ^ 26 < 0 ∨ w / 2 ^ 26 = 4 ∨ 8 ≤ w / 2 ^ 26 :=
  decode_eq_error_iff.trans ne_opcodeNumber_iff

/-! ### Encode and decode -/

theorem decode_encode {i : Instr} (h : i.wellFormed = true) : decode (encode i) = .ok i :=
  decode_eq_ok_iff.2 ⟨encode_div i, decodeFields_encodeNat h⟩

theorem encode_of_decode {w : Int} {i : Instr} (h : decode w = .ok i) : encode i = w := by
  obtain ⟨hop, hf⟩ := decode_eq_ok_iff.1 h
  have hw : (w.toNat : Int) = w := by omega
  rw [encode, encodeNat_of_decodeFields (by omega) hf, hw]

theorem wellFormed_of_decode {w : Int} {i : Instr} (h : decode w = .ok i) : i.wellFormed = true := by
  rw [Instr.wellFormed, ← (decode_eq_ok_iff.1 h).2]
  exact wellFormed_decodeFields _

/-- The sum of R76, with the offset's part over the integers. -/
theorem encode_eq_sum (i : Instr) :
    encode i = (opcodeNumber i.op * 2 ^ 26 + i.fields.cond.toNat * 2 ^ 22 + i.fields.rt.val * 2 ^ 18
      + i.fields.rs1.val * 2 ^ 14 + i.fields.rs2.val * 2 ^ 10 : Nat) + i.fields.offset % 2 ^ 10 := by
  rw [encode, encodeNat, Nat.cast_add, Int.toNat_of_nonneg (Int.emod_nonneg _ (by decide))]

/-- Settles O1: the sum by definition, the round trips from the decoder's inversion. -/
theorem encodeAndDecodeAreInverse : Obligations.EncodeAndDecodeAreInverse :=
  ⟨fun i hi => ⟨encode_eq_sum i, decode_encode hi⟩, fun _ _ => encode_of_decode⟩

/-- Settles O2: two words of one record are both the encoding of that record. -/
theorem decodeIsTotalAndInjective : Obligations.DecodeIsTotalAndInjective := by
  refine ⟨fun w => ?_, fun v w i hv hw => (encode_of_decode hv).symm.trans (encode_of_decode hw)⟩
  cases hd : decode w with
  | ok i => exact .inl ⟨i, rfl, wellFormed_of_decode hd, fun j hj => (Except.ok.inj hj).symm⟩
  | error e => exact .inr ⟨e, rfl⟩

/-- A worked encoding, in both directions, from one of them. -/
theorem decode_and_encode_of_encode {w : Int} {i : Instr} (hi : i.wellFormed = true)
    (h : encode i = w) : decode w = .ok i ∧ encode i = w :=
  ⟨h ▸ decode_encode hi, h⟩

/-- Settles O6, each row by computing the word of its record. -/
theorem workedEncodings : Obligations.WorkedEncodings :=
  ⟨decode_and_encode_of_encode rfl rfl, decode_and_encode_of_encode rfl rfl,
    decode_and_encode_of_encode rfl rfl, decode_and_encode_of_encode rfl rfl,
    decode_and_encode_of_encode rfl rfl, decode_and_encode_of_encode rfl rfl⟩

/-! ### The fields as a bit vector cuts them -/

/-- The opcode number of a word with bit 31 clear. -/
theorem opcode_bits_toNat {b : BitVec 32} (hb : b.toNat < 2 ^ 31) :
    (b.toNat : Int) / 2 ^ 26 = ((b.extractLsb 30 26).toNat : Int) := by
  rw [← bits_toNat b (by decide), bits]
  omega

/-- Settles O3: the decoder's inversion, with its fields and its number as bit vectors cut them. -/
theorem decodeReadsTheFields : Obligations.DecodeReadsTheFields := by
  refine ⟨fun w hw => malformed_iff.2 (by omega), fun b hb => ?_, (workedEncodings.1).1⟩
  have hok (op : Opcode) (hn : (b.extractLsb 30 26).toNat = opcodeNumber op) :
      decode b.toNat = .ok (Instr.make op (decodeFields b.toNat)) :=
    decode_eq_ok_iff.2
      ⟨by rw [opcode_bits_toNat hb, hn, make_op], by rw [Int.toNat_natCast, make_fields]⟩
  rw [decodeFields_toNat] at hok
  refine ⟨hok .halt, hok .load, hok .store, hok .add, hok .sub, hok .mul, hok .div, fun hn => ?_⟩
  rw [malformed_iff, opcode_bits_toNat hb]
  omega

/-! ### The selection by match word and mask -/

/-- The mask of R77 keeps the opcode number and bit 31. -/
theorem toNat_and_mask (b : BitVec 32) :
    (b &&& 0xFC000000#32).toNat = b.toNat / 2 ^ 26 * 2 ^ 26 := by
  have hb := b.isLt
  have hmask : (0xFC000000#32 : BitVec 32) = BitVec.allOnes 32 <<< 26 := by decide
  rw [hmask, ← BitVec.shiftLeft_ushiftRight, BitVec.toNat_shiftLeft, BitVec.toNat_ushiftRight,
    Nat.shiftLeft_eq, Nat.shiftRight_eq_div_pow]
  omega

/-- The match word of an operation (R77) has its number in bits 31 to 26 and nothing else. -/
theorem and_mask_eq_iff {b : BitVec 32} {op : Opcode} :
    b &&& 0xFC000000#32 = BitVec.ofNat 32 (opcodeNumber op * 2 ^ 26) ↔
      b.toNat / 2 ^ 26 = opcodeNumber op := by
  have := opcodeNumber_lt op
  rw [← BitVec.toNat_inj, toNat_and_mask, BitVec.toNat_ofNat]
  omega

/-- Bits 31 to 26 of a cell's pattern number an operation exactly when its signed value does (R71). -/
theorem toInt_div_eq_iff {b : BitVec 32} {op : Opcode} :
    b.toInt / 2 ^ 26 = (opcodeNumber op : Int) ↔ b.toNat / 2 ^ 26 = opcodeNumber op := by
  have := opcodeNumber_lt op
  have := b.isLt
  rw [BitVec.toInt_eq_toNat_cond]
  split <;> omega

/-- R77 with its match words computed from the opcode numbers. -/
theorem decode_toInt_eq_ok_make_iff {b : BitVec 32} {op : Opcode} :
    (∃ f, decode b.toInt = .ok (Instr.make op f)) ↔
      b &&& 0xFC000000#32 = BitVec.ofNat 32 (opcodeNumber op * 2 ^ 26) :=
  decode_eq_ok_make_iff.trans (toInt_div_eq_iff.trans and_mask_eq_iff.symm)

/-- Settles O4: the match words are the shifted opcode numbers, and a word that is not rejected has an
operation. -/
theorem matchAndMaskSelectTheOperation : Obligations.MatchAndMaskSelectTheOperation := by
  unfold Obligations.MatchAndMaskSelectTheOperation
  intro matchWord b
  have hmatch (op : Opcode) : matchWord op = BitVec.ofNat 32 (opcodeNumber op * 2 ^ 26) := by
    cases op <;> rfl
  refine ⟨fun op => ?_, fun hno => decode_eq_error_iff.2 fun op h => hno op ?_⟩ <;> rw [hmatch]
  · exact decode_toInt_eq_ok_make_iff
  · exact and_mask_eq_iff.2 (toInt_div_eq_iff.1 h)

/-! ### Malformed words and assembled lines -/

/-- Settles O5: the rejected words by number, and the decode fault of a step that fetches one. -/
theorem malformedWordsFaultWhenFetched : Obligations.MalformedWordsFaultWhenFetched := by
  have hmal (w : Int) : (∃ e, decode w = .error e) ↔
      (w < 0 ∨ 2 ^ 31 - 1 < w ∨ w / 2 ^ 26 = 4 ∨ (8 ≤ w / 2 ^ 26 ∧ w / 2 ^ 26 ≤ 31)) := by
    rw [malformed_iff]
    omega
  refine ⟨hmal, fun s w hs hm hw => ?_⟩
  obtain ⟨e, he⟩ := (hmal w).2 hw
  exact ⟨_, hs.step_of_malformed hm he, rfl, rfl⟩

theorem assemble_of_asmInstr {l : AsmLine} {i : Instr} (h : asmInstr l = some i) :
    assemble l = encode i := by
  cases l with
  | three op rt rs1 rs2 offset cond => cases h; rfl
  | halt cond => cases h; rfl
  | word n => cases h

/-- Settles O7: a line assembles to the word of its instruction. -/
theorem assembledLinesDecodeToTheirInstruction :
    Obligations.AssembledLinesDecodeToTheirInstruction :=
  ⟨fun _ _ h hi => assemble_of_asmInstr h ▸ decode_encode hi, fun _ _ _ _ => ⟨rfl, rfl⟩⟩

end Sys2Proof.Machine

/-! ## ALU: the flag and its answer, floor division, the zero divisor and the overflow -/

namespace Sys2Proof.Machine

/-! ### The flag and the answer of the ALU, said once -/

/-- What an arithmetic fault is: a zero divisor (R88), or an arithmetic result that does not fit (R92). -/
theorem arithmeticFault_iff {c : Config} {op : Opcode} {l r : Int} :
    arithmeticFault c op l r = true ↔ (op = .div ∧ r = 0) ∨
      (isArithmetic op = true ∧ fits c (exactResult op l r) = false) := by
  simp [arithmeticFault]

theorem alu_of_fault {c : Config} {op : Opcode} {l r : Int}
    (h : arithmeticFault c op l r = true) : alu c op l r = (0, flagV) := by simp [alu, h]

theorem alu_of_not_fault {c : Config} {op : Opcode} {l r : Int}
    (h : arithmeticFault c op l r = false) :
    alu c op l r = (exactResult op l r, signFlag (exactResult op l r)) := by simp [alu, h]

@[simp] theorem alu_div_zero (c : Config) (l : Int) : alu c .div l 0 = (0, flagV) :=
  alu_of_fault (arithmeticFault_iff.2 (.inl ⟨rfl, rfl⟩))

/-- The range test of R83, for every arithmetic operation but the division by zero. -/
theorem alu_arithmetic {op : Opcode} {r : Int} (hop : isArithmetic op = true)
    (hr : op ≠ .div ∨ r ≠ 0) (c : Config) (l : Int) :
    alu c op l r = if fits c (exactResult op l r)
      then (exactResult op l r, signFlag (exactResult op l r)) else (0, flagV) := by
  have hz : ¬ (op = .div ∧ r = 0) := not_and_or.2 hr
  cases hf : fits c (exactResult op l r)
  · exact alu_of_fault (arithmeticFault_iff.2 (.inr ⟨hop, hf⟩))
  · exact alu_of_not_fault (by rw [← Bool.not_eq_true, arithmeticFault_iff]; simp [hz, hf])

theorem signFlag_ne_flagV (e : Int) : signFlag e ≠ flagV := by
  rcases signFlag_cases e with ⟨-, h⟩ | ⟨-, h⟩ | ⟨-, h⟩ <;> rw [h] <;> decide

/-- The pairs the ALU can answer (R91): each flag with the sign of its result, and V with 0. -/
theorem alu_sign_cases (c : Config) (op : Opcode) (l r : Int) :
    ((alu c op l r).1 < 0 ∧ (alu c op l r).2 = flagM) ∨
    ((alu c op l r).1 = 0 ∧ ((alu c op l r).2 = flagZ ∨ (alu c op l r).2 = flagV)) ∨
    (0 < (alu c op l r).1 ∧ (alu c op l r).2 = flagP) := by
  rcases alu_cases c op l r with ⟨-, e⟩ | ⟨-, e⟩ <;> rw [e]
  · exact .inr (.inl ⟨rfl, .inr rfl⟩)
  · exact (signFlag_cases (exactResult op l r)).imp_right (Or.imp_left fun h => ⟨h.1, .inl h.2⟩)

/-- V comes from an arithmetic fault alone (R91). -/
theorem alu_flag_eq_flagV_iff {c : Config} {op : Opcode} {l r : Int} :
    (alu c op l r).2 = flagV ↔ arithmeticFault c op l r = true := by
  rcases alu_cases c op l r with ⟨hf, e⟩ | ⟨hf, e⟩ <;> rw [e, hf]
  · exact iff_of_true rfl rfl
  · exact iff_of_false (signFlag_ne_flagV _) Bool.false_ne_true

/-- Without V the ALU's answer is the exact result and its sign. -/
theorem alu_of_flag_ne_flagV {c : Config} {op : Opcode} {l r : Int}
    (h : (alu c op l r).2 ≠ flagV) :
    alu c op l r = (exactResult op l r, signFlag (exactResult op l r)) :=
  alu_of_not_fault (by rwa [Ne, alu_flag_eq_flagV_iff, Bool.not_eq_true] at h)

theorem alu_div_of_flag_ne_flagV {c : Config} {l r : Int} (h : (alu c .div l r).2 ≠ flagV) :
    (alu c .div l r).1 = l.fdiv r := by rw [alu_of_flag_ne_flagV h, exactResult]

/-- Settles O9: the sign of the result decides the flag, and only an arithmetic fault gives V. -/
theorem derivedFlagFollowsResult : Obligations.DerivedFlagFollowsResult := by
  intro c op l r
  have hV := (alu_flag_eq_flagV_iff (c := c) (op := op) (l := l) (r := r)).trans arithmeticFault_iff
  rcases alu_sign_cases c op l r with ⟨hs, hf⟩ | ⟨hs, hf | hf⟩ | ⟨hs, hf⟩ <;> rw [hf] at hV ⊢
  · exact ⟨iff_of_true rfl hs, iff_of_false (by decide) hs.not_gt,
      iff_of_false (by decide) hs.ne, by decide, hV⟩
  · exact ⟨iff_of_false (by decide) hs.not_lt, iff_of_false (by decide) hs.not_gt,
      iff_of_true (by decide) hs, by decide, hV⟩
  · exact ⟨iff_of_false (by decide) hs.not_lt, iff_of_false (by decide) hs.not_gt,
      iff_of_true (by decide) hs, by decide, hV⟩
  · exact ⟨iff_of_false (by decide) hs.not_gt, iff_of_true rfl hs,
      iff_of_false (by decide) hs.ne', by decide, hV⟩

/-! ### Floor division over the integers -/

/-- The floor of the quotient by a positive divisor. -/
theorem fdiv_bounds_of_pos {r : Int} (hr : 0 < r) (l : Int) :
    l.fdiv r * r ≤ l ∧ l < l.fdiv r * r + r := by
  obtain ⟨hsum, hlo, hhi⟩ := (Int.fdiv_fmod_unique hr).1 (And.intro rfl (Eq.refl (l.fmod r)))
  rw [mul_comm] at hsum
  omega

/-- The floor of the quotient by a negative divisor: the bounds turn round. -/
theorem fdiv_bounds_of_neg {r : Int} (hr : r < 0) (l : Int) :
    l ≤ l.fdiv r * r ∧ l.fdiv r * r + r < l := by
  have h := fdiv_bounds_of_pos (neg_pos.2 hr) (-l)
  rw [Int.neg_fdiv_neg, mul_neg] at h
  omega

/-- The remainder of floor division is zero or has the sign of the divisor (R95). -/
theorem fdiv_remainder_sign {r : Int} (hr : r ≠ 0) (l : Int) :
    l - r * l.fdiv r = 0 ∨ (0 < r ∧ 0 < l - r * l.fdiv r) ∨ (r < 0 ∧ l - r * l.fdiv r < 0) := by
  rw [mul_comm r]
  rcases lt_or_gt_of_ne hr with hr | hr
  · have := fdiv_bounds_of_neg hr l
    omega
  · have := fdiv_bounds_of_pos hr l
    omega

/-- Where the signs agree or the division is exact, the floor is the truncated quotient (R87). -/
theorem fdiv_eq_tdiv_of_signs_agree {l r : Int}
    (h : (0 ≤ l ∧ 0 < r) ∨ (l ≤ 0 ∧ r < 0) ∨ r ∣ l) : l.fdiv r = l.tdiv r := by
  rcases h with ⟨hl, hr⟩ | ⟨hl, hr⟩ | hd
  · exact Int.fdiv_eq_tdiv_of_nonneg hl hr.le
  · rw [← Int.neg_fdiv_neg, Int.fdiv_eq_tdiv_of_nonneg (by omega) (by omega), Int.neg_tdiv_neg]
  · rw [Int.fdiv_eq_tdiv, if_pos hd, sub_zero]

/-- Where the signs differ and the division is not exact, the floor is one less than the truncated
quotient (R87). -/
theorem fdiv_eq_tdiv_sub_one_of_signs_differ {l r : Int}
    (h : (l < 0 ∧ 0 < r) ∨ (0 < l ∧ r < 0)) (hd : ¬ r ∣ l) : l.fdiv r = l.tdiv r - 1 := by
  rw [Int.fdiv_eq_tdiv, if_neg hd]
  rcases h with ⟨hl, hr⟩ | ⟨hl, hr⟩
  · rw [if_neg (by omega), if_pos hr.le, Int.sign_eq_one_of_pos hr]
  · rw [if_pos hl.le, if_neg (by omega)]

theorem fdiv_of_pos_of_pos {l r : Int} (hl : 0 < l) (hr : 0 < r) :
    0 ≤ l.fdiv r ∧ (l.fdiv r = 0 ↔ l.natAbs < r.natAbs) := by
  refine ⟨Int.fdiv_nonneg hl.le hr.le, fun h0 => ?_, fun hlt => ?_⟩
  · have hlt := (fdiv_bounds_of_pos hr l).2
    rw [h0] at hlt
    omega
  · exact Int.fdiv_eq_zero_of_lt hl.le (by omega)

/-- The quotient of equal signs: not negative, and 0 exactly for a dividend smaller in magnitude (R95). -/
theorem fdiv_of_signs_equal {l r : Int} (h : (0 < l ∧ 0 < r) ∨ (l < 0 ∧ r < 0)) :
    0 ≤ l.fdiv r ∧ (l.fdiv r = 0 ↔ l.natAbs < r.natAbs) := by
  rcases h with ⟨hl, hr⟩ | ⟨hl, hr⟩
  · exact fdiv_of_pos_of_pos hl hr
  · have h := fdiv_of_pos_of_pos (neg_pos.2 hl) (neg_pos.2 hr)
    rwa [Int.neg_fdiv_neg, Int.natAbs_neg, Int.natAbs_neg] at h

/-- The quotient of different signs is negative (R95). -/
theorem fdiv_neg_of_signs_differ {l r : Int} (h : (l < 0 ∧ 0 < r) ∨ (0 < l ∧ r < 0)) :
    l.fdiv r < 0 := by
  rcases h with ⟨hl, hr⟩ | ⟨hl, hr⟩
  · exact Int.fdiv_neg_of_neg_of_pos hl hr
  · rw [← Int.neg_fdiv_neg]
    exact Int.fdiv_neg_of_neg_of_pos (neg_neg_of_pos hl) (neg_pos.2 hr)

theorem fdiv_neg_one (l : Int) : l.fdiv (-1) = -l := by
  rw [← Int.neg_fdiv_neg, neg_neg, Int.fdiv_one]

theorem floor_div_eq_fdiv_of_nonneg (l : Int) {r : Int} (hr : 0 ≤ r) :
    Int.floor ((l : ℚ) / (r : ℚ)) = l.fdiv r := by
  rw [Int.fdiv_eq_ediv_of_nonneg l hr]
  lift r to ℕ using hr
  exact Rat.floor_intCast_div_natCast l r

/-- The floor of the rational quotient is what the model's DIV computes. -/
theorem floor_div_eq_fdiv (l r : Int) : Int.floor ((l : ℚ) / (r : ℚ)) = l.fdiv r := by
  rcases le_total 0 r with hr | hr
  · exact floor_div_eq_fdiv_of_nonneg l hr
  · have h := floor_div_eq_fdiv_of_nonneg (-l) (neg_nonneg.2 hr)
    rwa [Int.neg_fdiv_neg, Int.cast_neg, Int.cast_neg, neg_div_neg_eq] at h

/-! ### The table of the ALU and its division -/

/-- Settles O8, by the range test of the arithmetic operations and the exact answers of the others. -/
theorem aluComputesItsTable : Obligations.AluComputesItsTable := by
  intro c l r
  refine ⟨alu_arithmetic rfl (.inl (by decide)) c l, alu_arithmetic rfl (.inl (by decide)) c l,
    alu_arithmetic rfl (.inl (by decide)) c l, ?_, alu_of_not_arithmetic rfl c l r,
    alu_of_not_arithmetic rfl c l r, alu_of_not_arithmetic rfl c l r⟩
  split
  · next hr => rw [hr, alu_div_zero]
  · next hr =>
    rw [floor_div_eq_fdiv]
    exact alu_arithmetic rfl (.inr hr) c l

/-- Settles O10: without V the answer is the floor, set against its bounds and the truncated quotient. -/
theorem divisionRoundsDown : Obligations.DivisionRoundsDown := by
  refine ⟨by decide, fun c l r _ hV => ?_⟩
  rw [alu_div_of_flag_ne_flagV hV]
  exact ⟨fun h => fdiv_bounds_of_pos h l, fun h => fdiv_bounds_of_neg h l,
    fdiv_eq_tdiv_of_signs_agree, fdiv_eq_tdiv_sub_one_of_signs_differ⟩

/-- Both signs changed, a division gives the same answer, faults included (R95). -/
theorem alu_div_neg_neg (c : Config) (l r : Int) : alu c .div (-l) (-r) = alu c .div l r := by
  simp only [alu, arithmeticFault, exactResult, Int.neg_fdiv_neg, neg_eq_zero]

/-- Settles O11, from the signs and the laws of floor division over the integers. -/
theorem divisionSignsAndLaws : Obligations.DivisionSignsAndLaws := by
  intro c l r hr hV
  rw [alu_div_neg_neg, alu_div_of_flag_ne_flagV hV]
  refine ⟨fdiv_of_signs_equal, fdiv_neg_of_signs_differ, ?_, ?_, ?_, ?_, fdiv_remainder_sign hr l⟩
  · rintro rfl; exact Int.zero_fdiv r
  · rintro rfl; exact Int.fdiv_one l
  · rintro rfl; exact fdiv_neg_one l
  · rw [← alu_div_of_flag_ne_flagV hV]

/-! ### The zero divisor and the overflow -/

/-- An executed DIV tests the sum of its second source and the offset (R88). -/
theorem aluOf_div_of_zero_divisor {f : Fields} {s : State} (h : readReg s f.rs2 + f.offset = 0) :
    aluOf .div f s = (0, flagV) := by
  rw [aluOf, rightOperand, h, alu_div_zero]

theorem exec_of_satisfied {i : Instr} {s : State} (h : satisfied s.flag i.fields.cond = true) :
    exec i s = .next (effectOf i s) := by
  rw [exec_eq_predicated, predicated_satisfied h]

/-- Settles O12: the ALU answers `(0, V)`, and the effect of a DIV writes that and advances. -/
theorem zeroDivisorGivesZeroAndV : Obligations.ZeroDivisorGivesZeroAndV := by
  refine ⟨alu_div_zero, fun c a d hd hfit => ?_, fun f s hsat hdiv => ?_⟩
  · rw [floor_div_eq_fdiv] at hfit
    rw [alu_arithmetic rfl (.inr hd), exactResult, if_pos hfit]
    exact signFlag_ne_flagV _
  · have halu := aluOf_div_of_zero_divisor hdiv
    refine ⟨arithmeticEffect .div f s, exec_of_satisfied hsat, ?_, ?_,
      sameControl_arithmeticEffect .div f s, fun hrt => ?_⟩
    · rw [(arithmeticEffect_frame .div f s).1, halu]
    · rw [readReg_arithmeticEffect, halu, if_pos rfl, ite_self]
    · rw [pc, readReg_arithmeticEffect, if_neg pcIndex_ne_zero, if_neg hrt.symm, if_pos rfl]

theorem fits_32_iff {m : Nat} {e : Int} :
    fits { xlen := some 32, memSize := m } e = true ↔ -2147483648 ≤ e ∧ e ≤ 2147483647 := by
  rw [fits_width]
  norm_num

theorem not_fits_32_iff {m : Nat} {e : Int} :
    fits { xlen := some 32, memSize := m } e = false ↔ e < -2147483648 ∨ 2147483647 < e := by
  rw [← Bool.not_eq_true, fits_32_iff]
  omega

/-- A quotient is no greater in magnitude than the dividend, so that only `2^31` can fail to fit, and only
the least dividend by -1 gives it (R92). -/
theorem quotient_overflows_32_iff {l r : Int} (hl : -2147483648 ≤ l ∧ l ≤ 2147483647) (hr : r ≠ 0) :
    (l.fdiv r < -2147483648 ∨ 2147483647 < l.fdiv r) ↔ l = -2147483648 ∧ r = -1 := by
  constructor
  · intro hq
    have habs := Int.natAbs_fdiv_le_natAbs l r
    have hq' : l.fdiv r = 2147483648 := by omega
    rcases lt_or_gt_of_ne hr with hneg | hpos
    · have := fdiv_bounds_of_neg hneg l
      rw [hq'] at this
      omega
    · have := fdiv_bounds_of_pos hpos l
      rw [hq'] at this
      omega
  · rintro ⟨rfl, rfl⟩
    decide

/-- Settles O13: an overflow is an arithmetic fault, and the bounds of 32 bits decide which there are. -/
theorem overflowGivesZeroAndV : Obligations.OverflowGivesZeroAndV :=
  ⟨fun _ _ _ _ hop hf => alu_of_fault (arithmeticFault_iff.2 (.inr ⟨hop, hf⟩)),
    fun _ _ => not_fits_32_iff,
    fun _ _ _ hl hr => not_fits_32_iff.trans (quotient_overflows_32_iff (fits_32_iff.1 hl) hr)⟩

end Sys2Proof.Machine

/-! ## Step cycle: the predicate, the skipped step, reads of the program counter, the frame, the trace -/

namespace Sys2Proof.Machine

/-! ### The predicate -/

theorem satisfied_iff {flag cond : Mask} : satisfied flag cond = true ↔ flag &&& cond ≠ 0#4 :=
  decide_eq_true_iff

theorem satisfied_eq_false_iff {flag cond : Mask} :
    satisfied flag cond = false ↔ flag &&& cond = 0#4 := by
  rw [← Bool.not_eq_true, satisfied_iff, not_not]

@[simp] theorem satisfied_never (flag : Mask) : satisfied flag never = false :=
  satisfied_eq_false_iff.2 BitVec.and_zero

theorem satisfied_always {cond : Mask} : satisfied always cond = true ↔ cond ≠ never := by
  have h : always &&& cond = cond := BitVec.allOnes_and
  rw [satisfied_iff, h]
  rfl

/-- A flag of one bit meets the conditions that have this bit (R29, R102). -/
theorem satisfied_twoPow {k : Nat} (hk : k < 4) (cond : Mask) :
    satisfied (BitVec.twoPow 4 k) cond = true ↔ cond.getLsbD k = true := by
  have hbit : BitVec.twoPow 4 k ≠ 0#4 := fun h => by
    have := congrArg (BitVec.getLsbD · k) h
    simp [hk] at this
  rw [satisfied_iff, BitVec.and_comm, BitVec.and_twoPow]
  split
  · next hb => exact iff_of_true hbit hb
  · next hb => exact iff_of_false (not_not.2 rfl) hb

/-- No legal flag is empty, so that ALWAYS meets each (R28). -/
theorem satisfied_always_of_legal {flag : Mask} (h : flag ∈ legalFlags) :
    satisfied flag always = true := by
  have hne : flag ≠ never := by
    rintro rfl
    exact absurd h (by decide)
  rw [satisfied_iff, BitVec.and_comm]
  exact satisfied_iff.1 (satisfied_always.2 hne)

/-- Settles O14: M, Z, P and V are the four flags of one bit, ALWAYS has every bit and NEVER none. -/
theorem predicateIsTheMeetOfFlagAndCondition :
    Obligations.PredicateIsTheMeetOfFlagAndCondition := by
  refine ⟨fun _ _ => satisfied_iff, fun _ => satisfied_always, fun cond => ⟨?_, ?_, ?_, ?_⟩,
    fun _ => satisfied_always_of_legal, satisfied_never⟩
  · exact satisfied_twoPow (k := 0) (by decide) cond
  · exact satisfied_twoPow (k := 1) (by decide) cond
  · exact satisfied_twoPow (k := 2) (by decide) cond
  · exact satisfied_twoPow (k := 3) (by decide) cond

/-! ### The step of a fetched instruction -/

/-- Settles O34, by the equation of a step that fetches. -/
theorem stepRunsTheDecodedInstruction : Obligations.StepRunsTheDecodedInstruction :=
  fun _ _ _ hf => hf.step_eq

section FetchedStep

variable {s t : State} {w : Int} {i : Instr}

theorem Fetches.step_of_skipped (hf : Fetches s w i) (hskip : satisfied s.flag i.fields.cond = false) :
    step s = .next (advance (begun w i s)) := by
  rw [hf.step_eq, exec_eq_predicated]
  exact predicated_skipped hskip

/-- The port is idle at an edge that executes no instruction, skipping one or fetching none (R103). -/
theorem dataPort_of_not_executed
    (h : ∀ w i, Fetches s w i → satisfied s.flag i.fields.cond = false) : dataPort s = .idle := by
  rcases dataPort_cases s with ⟨w, i, hf, hsat, -⟩ | ⟨-, e⟩
  · cases (h w i hf).symm.trans hsat
  · exact e

theorem Fetches.dataPort_of_skipped (hf : Fetches s w i)
    (hskip : satisfied s.flag i.fields.cond = false) : dataPort s = .idle :=
  dataPort_of_not_executed fun _ _ hf' => by
    obtain ⟨-, rfl⟩ := hf.unique hf'
    exact hskip

/-- All a step that fetches can answer: the effect of its instruction, or the advance alone. -/
theorem Fetches.next_cases (hf : Fetches s w i) (h : step s = .next t) :
    t = effectOf i (begun w i s) ∨ t = advance (begun w i s) := by
  rw [hf.step_eq, exec_eq_predicated] at h
  exact (predicated_cases h).imp And.right And.right

/-- Whatever an edge executes is the instruction it fetches. -/
theorem Fetches.op_eq_of_executes (hf : Fetches s w i) {op : Opcode} {f : Fields}
    (hx : Executes s op f) : i.op = op := by
  obtain ⟨_, hf', -⟩ := hx
  obtain ⟨-, rfl⟩ := hf.unique hf'
  exact make_op op f

end FetchedStep

theorem sameRegisters_advance (s : State) : SameRegisters s (advance s) := fun r hr => by
  rw [readReg_advance, if_neg hr]

/-- Settles O25: the step is the advance of the state begun, and the port is idle. -/
theorem skippedInstructionOnlyAdvances : Obligations.SkippedInstructionOnlyAdvances := by
  intro s w i hf hmeet
  have hskip := satisfied_eq_false_iff.2 hmeet
  refine ⟨hf.dataPort_of_skipped hskip, tracePort_of_fetches hf, _, hf.step_of_skipped hskip,
    pc_advance _, ?_, advance_flag _, advance_mem _, advance_config _, ?_⟩
  · exact sameRegisters_advance (begun w i s)
  · exact ⟨advance_halted _, advance_runState _, advance_fault _⟩

/-! ### Reads and writes of the program counter -/

theorem loadEffect_of_memRead {f : Fields} {s : State} {v : Int}
    (h : memRead s (loadAddress f s) = some v) : loadEffect f s = writeReg f.rt v (advance s) := by
  rcases loadEffect_cases f s with ⟨v', hv, e⟩ | ⟨hn, -⟩
  · cases h.symm.trans hv
    exact e
  · cases h.symm.trans hn

theorem pc_arithmeticEffect_of_target {f : Fields} (hrt : f.rt = pcIndex) (op : Opcode) (s : State) :
    pc (arithmeticEffect op f s) = (aluOf op f s).1 := by
  rw [pc, readReg_arithmeticEffect, if_neg pcIndex_ne_zero, if_pos hrt.symm]

/-- An instruction that completes under a satisfied predicate leaves its effect. -/
theorem eq_effectOf_of_exec {i : Instr} {s t : State} (hsat : satisfied s.flag i.fields.cond = true)
    (h : exec i s = .next t) : t = effectOf i s := by
  cases (exec_of_satisfied hsat).symm.trans h
  rfl

/-- Settles O29: the sources are read from the state before the advance, the stored value after it, and
the target is written last. -/
theorem whatReadsOfTheProgramCounterSee : Obligations.WhatReadsOfTheProgramCounterSee := by
  intro f s
  refine ⟨fun h => congrArg (readReg s) h, fun h => congrArg (readReg s · + f.offset) h,
    fun hsat => ⟨fun t hrt hv h => ?_, fun t op hop hrt h => ?_, fun t v hrt hv h => ?_,
      fun t h => ?_⟩⟩
  · rw [eq_effectOf_of_exec hsat h, effectOf, memRead_storeEffect hv, if_pos hrt]
  · rw [eq_effectOf_of_exec (by rwa [make_fields]) h, effectOf_make_arithmetic hop]
    exact pc_arithmeticEffect_of_target hrt op s
  · rw [eq_effectOf_of_exec hsat h, effectOf, loadEffect_of_memRead hv, hrt, pc_writeReg_pcIndex]
  · rw [eq_effectOf_of_exec hsat h]
    exact pc_haltEffect s

/-! ### What an effect depends on -/

theorem storeEffect_of_valid {f : Fields} {s : State}
    (h : validAddress s.config (storeAddress f s) = true) : storeEffect f s = { advance s with
      mem := store s.mem (storeAddress f s).toNat (readReg (advance s) f.rt) } := by
  rcases storeEffect_cases f s with ⟨-, -, e⟩ | ⟨hv, -⟩
  · exact e
  · cases h.symm.trans hv

/-- Two states hold the same configuration, registers, flag and memory: all that an instruction reads
and all, but for the control fields, that it writes (R112). -/
structure SameData (s s' : State) : Prop where
  config : s'.config = s.config
  regs : s'.regs = s.regs
  flag : s'.flag = s.flag
  mem : s'.mem = s.mem

section SameData

variable {s s' : State}

theorem SameData.readReg (h : SameData s s') (r : Reg) : readReg s' r = readReg s r :=
  readReg_congr h.regs r

theorem SameData.writeReg (h : SameData s s') (r : Reg) (v : Int) :
    SameData (writeReg r v s) (writeReg r v s') where
  config := by simpa using h.config
  regs := writeReg_regs_congr h.regs r v
  flag := by simpa using h.flag
  mem := by simpa using h.mem

theorem SameData.advance (h : SameData s s') : SameData (advance s) (advance s') := by
  unfold Machine.advance
  rw [show pc s' = pc s from h.readReg pcIndex]
  exact h.writeReg pcIndex _

theorem SameData.aluOf (h : SameData s s') (op : Opcode) (f : Fields) :
    aluOf op f s' = aluOf op f s := by
  unfold Machine.aluOf leftOperand rightOperand
  rw [h.config, h.readReg, h.readReg]

theorem SameData.arithmeticEffect (h : SameData s s') (op : Opcode) (f : Fields) :
    SameData (arithmeticEffect op f s) (arithmeticEffect op f s') := by
  unfold Machine.arithmeticEffect
  rw [h.aluOf]
  exact { h.advance.writeReg f.rt _ with flag := rfl }

theorem SameData.haltEffect (h : SameData s s') : SameData (haltEffect s) (haltEffect s') :=
  { h.advance with }

theorem SameData.loadEffect (h : SameData s s') (f : Fields) :
    SameData (loadEffect f s) (loadEffect f s') := by
  have haddr : loadAddress f s' = loadAddress f s := congrArg Prod.fst (h.aluOf .load f)
  have hread := memRead_congr h.advance.config h.advance.mem (loadAddress f s)
  unfold Machine.loadEffect
  rw [haddr, hread]
  cases memRead (Machine.advance s) (loadAddress f s) with
  | none => exact { h.advance with }
  | some v => exact h.advance.writeReg f.rt v

/-- The write of both goes to the same cell, or both fault. -/
theorem SameData.storeEffect (h : SameData s s') (f : Fields) :
    SameData (storeEffect f s) (storeEffect f s') := by
  have haddr : storeAddress f s' = storeAddress f s := congrArg Prod.fst (h.aluOf .store f)
  cases hv : validAddress s.config (storeAddress f s)
  · rw [storeEffect_of_invalid hv, storeEffect_of_invalid (by rwa [haddr, h.config])]
    exact { h.advance with }
  · rw [storeEffect_of_valid hv, storeEffect_of_valid (by rwa [haddr, h.config]), haddr, h.mem,
      h.advance.readReg]
    exact { h.advance with mem := rfl }

theorem SameData.effectOf (h : SameData s s') (i : Instr) :
    SameData (effectOf i s) (effectOf i s') := by
  cases i with
  | halt f => exact h.haltEffect
  | load f => exact h.loadEffect f
  | store f => exact h.storeEffect f
  | add f | sub f | mul f | div f => exact h.arithmeticEffect _ f

end SameData

/-- Settles O33: the predicate reads the flag, and effect and advance keep equal data equal. -/
theorem effectDependsOnRegistersFlagAndMemory :
    Obligations.EffectDependsOnRegistersFlagAndMemory := by
  intro i s s' t hc hr hf hm h
  have hdata : SameData s s' := ⟨hc, hr, hf, hm⟩
  rw [exec_eq_predicated] at h ⊢
  rcases predicated_cases h with ⟨hsat, rfl⟩ | ⟨hskip, rfl⟩
  · have he := hdata.effectOf i
    exact ⟨_, predicated_satisfied (hf ▸ hsat), he.regs, he.flag, he.mem⟩
  · have ha := hdata.advance
    exact ⟨_, predicated_skipped (hf ▸ hskip), ha.regs, ha.flag, ha.mem⟩

/-! ### The frame of an effect -/

section EffectFrame

variable (i : Instr) (s : State)

/-- A STORE and a HALT write no register but the program counter (R121, R123). -/
theorem sameRegisters_effectOf {i : Instr} (hop : isArithmetic i.op = false) (hload : i.op ≠ .load)
    (s : State) : SameRegisters s (effectOf i s) := by
  cases i with
  | halt f => exact sameRegisters_advance s
  | store f =>
    intro r hr
    rw [effectOf, ← sameRegisters_advance s r hr]
    rcases storeEffect_cases f s with ⟨-, -, e⟩ | ⟨-, e⟩ <;> rw [e] <;> rfl
  | load f => exact absurd rfl hload
  | add f | sub f | mul f | div f => cases hop

theorem sameRegistersBut_loadEffect (f : Fields) :
    SameRegistersBut f.rt s (loadEffect f s) := by
  intro r hrt hr
  rw [← sameRegisters_advance s r hr]
  rcases loadEffect_cases f s with ⟨v, -, e⟩ | ⟨-, e⟩ <;> rw [e]
  · exact readReg_writeReg_other hrt v _
  · rfl

theorem sameRegistersBut_arithmeticEffect (op : Opcode) (f : Fields) :
    SameRegistersBut f.rt s (arithmeticEffect op f s) := by
  intro r hrt hr
  rw [arithmeticEffect, readReg_setFlag, readReg_writeReg_other hrt, sameRegisters_advance s r hr]

/-- No effect writes a register but the program counter and the target (R112). -/
theorem sameRegistersBut_effectOf : SameRegistersBut i.fields.rt s (effectOf i s) := by
  cases i with
  | halt f | store f => exact fun r _ hr => sameRegisters_effectOf rfl (by simp [Instr.op]) s r hr
  | load f => exact sameRegistersBut_loadEffect s f
  | add f | sub f | mul f | div f => exact sameRegistersBut_arithmeticEffect s _ f

theorem sameEnvironment_loadEffect (f : Fields) : SameEnvironment s (loadEffect f s) := by
  rcases loadEffect_cases f s with ⟨v, -, e⟩ | ⟨-, e⟩ <;> rw [e] <;>
  exact ⟨by simp, by simp, by simp, by simp⟩

theorem sameEnvironment_storeEffect (f : Fields) : SameEnvironment s (storeEffect f s) := by
  rcases storeEffect_cases f s with ⟨-, -, e⟩ | ⟨-, e⟩ <;> rw [e] <;>
  exact ⟨by simp, by simp, by simp, by simp⟩

theorem sameEnvironment_arithmeticEffect (op : Opcode) (f : Fields) :
    SameEnvironment s (arithmeticEffect op f s) :=
  have ⟨_, _, _, henv⟩ := arithmeticEffect_frame op f s
  henv

theorem sameEnvironment_effectOf : SameEnvironment s (effectOf i s) := by
  cases i with
  | halt f =>
    exact ⟨haltEffect_config s, haltEffect_trace s, haltEffect_stepped s, haltEffect_inputs s⟩
  | load f => exact sameEnvironment_loadEffect s f
  | store f => exact sameEnvironment_storeEffect s f
  | add f | sub f | mul f | div f => exact sameEnvironment_arithmeticEffect s _ f

/-- Only a STORE writes the memory (R45, R121). -/
theorem effectOf_mem_of_not_store {i : Instr} (hop : i.op ≠ .store) (s : State) :
    (effectOf i s).mem = s.mem := by
  cases i with
  | store f => exact absurd rfl hop
  | halt f => exact haltEffect_mem s
  | load f => exact loadEffect_mem f s
  | add f | sub f | mul f | div f => exact arithmeticEffect_mem _ f s

theorem sameMemoryBut_storeEffect (f : Fields) (hm : s.mem.wf) :
    SameMemoryBut (storeAddress f s) s (storeEffect f s) := by
  intro a ha
  have hadvance : memRead (advance s) a = memRead s a :=
    memRead_congr (advance_config s) (advance_mem s) a
  rcases storeEffect_cases f s with ⟨-, hw, -⟩ | ⟨-, e⟩
  · rw [memRead_memWrite_other (by rwa [advance_mem]) hw ha, hadvance]
  · rw [e, ← hadvance]
    rfl

/-- No effect writes a cell but the one at the address of a STORE (R112). -/
theorem sameMemoryBut_effectOf (hm : s.mem.wf) :
    SameMemoryBut (storeAddress i.fields s) s (effectOf i s) := by
  by_cases hop : i.op = .store
  · cases i with
    | store f => exact sameMemoryBut_storeEffect s f hm
    | halt f | load f | add f | sub f | mul f | div f => cases hop
  · exact fun a _ => memRead_congr (sameEnvironment_effectOf i s).config
      (effectOf_mem_of_not_store hop s) a

end EffectFrame

/-! ### The frame of a step -/

section StepFrame

variable {s t : State} {w : Int} {i : Instr}

theorem Fetches.not_takesRunCommand (hf : Fetches s w i) : ¬ TakesRunCommand s :=
  fun ⟨_, hs, _⟩ => hs hf.steps.running

theorem Fetches.flag_of_not_arithmetic (hf : Fetches s w i) (h : step s = .next t)
    (hop : isArithmetic i.op = false) : t.flag = s.flag :=
  flag_of_step h hf.steps.notReset fun _ _ harith hx => by
    cases (hf.op_eq_of_executes hx ▸ hop).symm.trans harith

/-- A step without a fault keeps the latch, and the halted boolean and the run-state unless it is a HALT. -/
theorem Fetches.control_of_not_faulted (hf : Fetches s w i) (h : step s = .next t)
    (hok : t.runState ≠ .faulted) :
    (i.op ≠ .halt → t.halted = s.halted ∧ t.runState = s.runState) ∧ t.fault = s.fault := by
  rcases halt_or_fault_or_sameControl h hf.steps.notReset hf.not_takesRunCommand with
    ⟨f, hx⟩ | ⟨c, info, hx⟩ | hc
  · obtain ⟨-, -, hlatch⟩ := hx.halts h
    exact ⟨fun hop => absurd (hf.op_eq_of_executes hx) hop, hlatch⟩
  · obtain ⟨-, hfaulted, -⟩ := hx.faults h
    exact absurd hfaulted hok
  · exact ⟨fun _ => ⟨hc.halted, hc.runState⟩, hc.fault⟩

/-- What a step may change but for the flag and the control fields, faulting or not. -/
theorem Fetches.frame (hf : Fetches s w i) (h : step s = .next t) :
    SameRegistersBut i.fields.rt s t ∧
    (isArithmetic i.op = false → i.op ≠ .load → SameRegisters s t) ∧
    (i.op ≠ .store → t.mem = s.mem) ∧
    (s.mem.wf → SameMemoryBut (storeAddress i.fields s) s t) ∧
    t.config = s.config ∧ t.trace = some { pc := pc s, word := w, instr := i } := by
  rcases hf.next_cases h with rfl | rfl
  · have henv := sameEnvironment_effectOf i (begun w i s)
    exact ⟨sameRegistersBut_effectOf i (begun w i s),
      fun hop hload => sameRegisters_effectOf hop hload (begun w i s),
      fun hop => effectOf_mem_of_not_store hop (begun w i s),
      sameMemoryBut_effectOf i (begun w i s), henv.config, henv.trace⟩
  · have hregs := sameRegisters_advance (begun w i s)
    exact ⟨fun r _ hr => hregs r hr, fun _ _ => hregs, fun _ => advance_mem _,
      fun _ a _ => memRead_congr (advance_config _) (advance_mem _) a, advance_config _,
      advance_trace _⟩

end StepFrame

/-- Settles O38: the frames of effect and advance, and the writers of the flag and the control fields. -/
theorem stepFrame : Obligations.StepFrame := by
  intro s t w i hf h hok
  obtain ⟨hrt, hregs, hmem, hcells, hconfig, -⟩ := hf.frame h
  obtain ⟨hcontrol, hlatch⟩ := hf.control_of_not_faulted h hok
  exact ⟨readReg_zero t, hrt, hregs, hf.flag_of_not_arithmetic h, hmem, hcells, hcontrol, hlatch,
    hconfig⟩

/-! ### The record of the last event -/

/-- An edge that fetches no instruction leaves no event (R148). -/
theorem trace_of_step_of_not_fetches {s t : State} (h : step s = .next t)
    (hnone : ∀ w i, ¬ Fetches s w i) : t.trace = none := by
  obtain ⟨-, ⟨-, rfl⟩ | ⟨-, -, -, -, rfl⟩ | ⟨-, -, -, rfl⟩ | ⟨-, -, -, rfl⟩ | ⟨-, -, rfl⟩ |
    ⟨_, _, -, -, -, rfl⟩ | ⟨w, i, hf, -⟩⟩ := step_cases h
  · -- reset
    rfl
  · -- run command
    exact runCommand_trace _ _
  · -- no command outside a run
    rfl
  · -- single-step wait
    rfl
  · -- invalid fetch address
    rfl
  · -- malformed word
    rfl
  · -- the instruction fetched
    exact absurd hf (hnone w i)

/-- Settles O43: the trace outputs by what the edge fetches, and the event kept by effect and advance. -/
theorem traceShowsEveryDecodedInstruction : Obligations.TraceShowsEveryDecodedInstruction := by
  intro s t h
  refine ⟨fun w i hf => ?_, fun hnone => ?_, rfl, statusPorts_regO_getElem s⟩
  · obtain ⟨hvalid, hpc, hword, hinstr⟩ := statusPorts_of_fetches hf
    obtain ⟨-, -, -, -, -, htrace⟩ := hf.frame h
    exact ⟨hvalid, hpc, hword, hinstr, htrace⟩
  · obtain ⟨hvalid, -⟩ := statusPorts_of_not_fetches hnone
    exact ⟨hvalid, trace_of_step_of_not_fetches h hnone⟩

/-! ### The edges outside a run -/

section Stopped

variable {s : State}

theorem not_fetches_of_not_running (hs : s.runState ≠ .running) (w : Int) (i : Instr) :
    ¬ Fetches s w i := fun hf => hs hf.steps.running

/-- Past the end of the samples the host drives nothing, so that what all samples have in common with a
quiet host the coming one has (log entry 7). -/
theorem sample_of_forall_mem {P : Inputs → Prop} (hquiet : P Inputs.quiet)
    (h : ∀ p ∈ s.inputs, P p) : P (sample s) := by
  unfold sample
  cases hi : s.inputs with
  | nil => exact hquiet
  | cons p rest => exact h p (by simp [hi])

theorem step_of_stopped (hc : configWf s.config = true) (hs : s.runState ≠ .running)
    (hin : ∀ p ∈ s.inputs, p.rst = false ∧ p.runStart = false) : step s = .next (beginEdge s) := by
  obtain ⟨hr, hrun⟩ :=
    sample_of_forall_mem (P := fun p => p.rst = false ∧ p.runStart = false) ⟨rfl, rfl⟩ hin
  exact step_of_no_command hc hr hs hrun

theorem edges_of_stopped (k : Nat) (hc : configWf s.config = true) (hs : s.runState ≠ .running)
    (hin : ∀ p ∈ s.inputs, p.rst = false ∧ p.runStart = false) :
    edges (k + 1) s = some { s with trace := none, inputs := s.inputs.drop (k + 1) } := by
  induction k generalizing s with
  | zero => rw [edges_succ_of_step 0 (step_of_stopped hc hs hin), List.drop_one]; rfl
  | succ k ih =>
    rw [edges_succ_of_step (k + 1) (step_of_stopped hc hs hin),
      ih (s := beginEdge s) hc hs fun p hp => hin p (List.mem_of_mem_tail hp),
      beginEdge_inputs, List.drop_tail]
    rfl

end Stopped

/-- Settles O51: no edge outside a run fetches, and by induction each only uses up its sample. -/
theorem stoppedEngineIsQuiescent : Obligations.StoppedEngineIsQuiescent := by
  intro s k hc hs hin
  have hnone := not_fetches_of_not_running hs
  exact ⟨dataPort_of_not_executed fun w i hf => absurd hf (hnone w i),
    tracePort_of_not_fetches hnone, edges_of_stopped k hc hs hin⟩

end Sys2Proof.Machine

/-! ## Arithmetic instructions: completion and frame of ADD, SUB, MUL and DIV, executed and skipped -/

namespace Sys2Proof.Machine

/-! ### The meanings, executed and skipped -/

theorem exec_of_skipped {i : Instr} {s : State} (h : satisfied s.flag i.fields.cond = false) :
    exec i s = .next (advance s) := by
  rw [exec_eq_predicated, predicated_skipped h]

theorem sameEnvironment_advance (s : State) : SameEnvironment s (advance s) :=
  ⟨advance_config s, advance_trace s, advance_stepped s, advance_inputs s⟩

/-- No other instruction writes the flag, executed or skipped (R97, R103, R113). -/
theorem flag_of_exec_of_not_arithmetic {i : Instr} {s t : State} (hop : isArithmetic i.op = false)
    (h : exec i s = .next t) : t.flag = s.flag := by
  rw [exec_eq_predicated] at h
  rcases predicated_cases h with ⟨-, rfl⟩ | ⟨-, rfl⟩
  · exact effectOf_flag_of_not_arithmetic hop s
  · exact advance_flag s

/-- Only LOAD and STORE make a data access (R45, R56). -/
theorem dataAccess_of_arithmetic {i : Instr} (hop : isArithmetic i.op = true) (s : State) :
    dataAccess i s = .idle := by
  cases i with
  | add f | sub f | mul f | div f => rfl
  | halt f | load f | store f => cases hop

section Completion

variable {op : Opcode} {f : Fields} {s : State}

theorem exec_arithmetic_of_satisfied (hop : isArithmetic op = true)
    (hsat : satisfied s.flag f.cond = true) :
    exec (Instr.make op f) s = .next (arithmeticEffect op f s) := by
  rw [exec_of_satisfied (by rwa [make_fields]), effectOf_make_arithmetic hop]

/-- The common form of R113, where the ALU's answer is a range-tested result: the result and its sign
where the test `p` holds, else 0 and V. -/
theorem arithmetic_completes (hop : isArithmetic op = true) (hsat : satisfied s.flag f.cond = true)
    {p : Prop} [Decidable p] {e : Int}
    (halu : aluOf op f s = if p then (e, signFlag e) else (0, flagV)) :
    ∃ t, exec (Instr.make op f) s = .next t ∧
      (∀ r : Reg, readReg t r = if r = zeroIndex then 0
        else if r = f.rt then (if p then e else 0)
        else if r = pcIndex then pc s + 1 else readReg s r) ∧
      t.flag = (if p then signFlag e else flagV) ∧
      SameMemory s t ∧ SameControl s t ∧ SameEnvironment s t := by
  obtain ⟨hflag, hmem, hcontrol, henv⟩ := arithmeticEffect_frame op f s
  refine ⟨_, exec_arithmetic_of_satisfied hop hsat, fun r => ?_, ?_,
    memRead_congr henv.config hmem, hcontrol, henv⟩
  · rw [readReg_arithmeticEffect, halu, apply_ite Prod.fst]
  · rw [hflag, halu, apply_ite Prod.snd]

end Completion

/-- The answer of DIV with both of its faults, the zero divisor and the overflow, in one test (R88, R92). -/
theorem alu_div_eq (c : Config) (l r : Int) :
    alu c .div l r = if r ≠ 0 ∧ fits c (l.fdiv r) = true
      then (l.fdiv r, signFlag (l.fdiv r)) else (0, flagV) := by
  by_cases hr : r = 0
  · rw [hr, alu_div_zero, if_neg fun h => h.1 rfl]
  · simp only [ne_eq, hr, not_false_eq_true, true_and]
    exact alu_arithmetic rfl (.inr hr) c l

/-! ### The four instructions -/

/-- Settles O17: the common form, with the sum range-tested. -/
theorem addCompletes : Obligations.AddCompletes := fun _ _ hsat =>
  arithmetic_completes (op := .add) rfl hsat (alu_arithmetic rfl (.inl (by decide)) _ _)

/-- Settles O18: the common form, with the difference range-tested. -/
theorem subCompletes : Obligations.SubCompletes := fun _ _ hsat =>
  arithmetic_completes (op := .sub) rfl hsat (alu_arithmetic rfl (.inl (by decide)) _ _)

/-- Settles O19: the common form, with the product range-tested. -/
theorem mulCompletes : Obligations.MulCompletes := fun _ _ hsat =>
  arithmetic_completes (op := .mul) rfl hsat (alu_arithmetic rfl (.inl (by decide)) _ _)

/-- Settles O20: the common form, with the divisor tested too; the floor of the rational quotient is the
model's. -/
theorem divCompletes : Obligations.DivCompletes := by
  intro f s hsat d e
  have he : e = (readReg s f.rs1).fdiv d := floor_div_eq_fdiv _ _
  rw [he]
  exact arithmetic_completes (op := .div) rfl hsat (alu_div_eq _ _ _)

/-- Settles O21: the effect of R113 under a satisfied predicate, the advance under any other. -/
theorem arithmeticInstructionsShareOneForm :
    Obligations.ArithmeticInstructionsShareOneForm := by
  refine ⟨fun op f s => ⟨fun hop => dataAccess_of_arithmetic (by rwa [make_op]) s,
    fun hop t => flag_of_exec_of_not_arithmetic (by rwa [make_op])⟩, ?_⟩
  intro op f s hop answer
  refine ⟨fun hmeet => ?_, fun hmeet => ?_⟩
  · obtain ⟨hflag, hmem, hcontrol, henv⟩ := arithmeticEffect_frame op f s
    refine ⟨_, exec_arithmetic_of_satisfied hop (satisfied_iff.2 hmeet),
      readReg_arithmeticEffect op f s, hflag, hmem, hcontrol, henv, ?_⟩
    rw [hflag]
    rcases alu_sign_cases s.config op (leftOperand f s) (rightOperand f s) with
      ⟨hs, hm⟩ | ⟨hs, hz | hv⟩ | ⟨hs, hp⟩
    · exact .inl ⟨hm, hs⟩
    · exact .inr (.inl ⟨hz, hs⟩)
    · exact .inr (.inr (.inr ⟨hv, hs⟩))
    · exact .inr (.inr (.inl ⟨hp, hs⟩))
  · have hskip : satisfied s.flag (Instr.make op f).fields.cond = false := by
      rwa [make_fields, satisfied_eq_false_iff]
    exact ⟨_, exec_of_skipped hskip, pc_advance s, sameRegisters_advance s, advance_flag s,
      advance_mem s, sameControl_advance s, sameEnvironment_advance s⟩

end Sys2Proof.Machine

/-! ## Loads and stores: the address, completion and frame of LOAD and STORE, and a LOAD after a STORE -/

namespace Sys2Proof.Machine

/-! ### The address -/

theorem storeAddress_eq_loadAddress (f : Fields) (s : State) : storeAddress f s = loadAddress f s := by
  rw [storeAddress_eq, loadAddress_eq]

theorem loadAddress_eq_sum (f : Fields) (s : State) :
    loadAddress f s = readReg s f.rs1 + readReg s f.rs2 + f.offset := by
  rw [loadAddress_eq, add_assoc]

theorem storeAddress_eq_sum (f : Fields) (s : State) :
    storeAddress f s = readReg s f.rs1 + readReg s f.rs2 + f.offset :=
  (storeAddress_eq_loadAddress f s).trans (loadAddress_eq_sum f s)

/-- An admitted finite width is not 0 (R46, R48). -/
theorem width_pos_of_configWf {c : Config} {n : Nat} (hc : configWf c = true) (hn : c.xlen = some n) :
    0 < n := by
  simp only [configWf, hn, Bool.and_eq_true, decide_eq_true_eq] at hc
  obtain ⟨-, hilen, -⟩ := hc
  exact lt_of_lt_of_le (by decide) hilen

/-- The range test of R9 without the halved power, which a sum of two values needs. -/
theorem two_mul_bounds_of_fits {c : Config} {n : Nat} (hpos : 0 < n) (hn : c.xlen = some n) {v : Int}
    (hv : fits c v = true) : -(2 ^ n) ≤ 2 * v ∧ 2 * v ≤ 2 ^ n - 2 := by
  obtain ⟨k, rfl⟩ := Nat.exists_eq_succ_of_ne_zero hpos.ne'
  simp only [fits, hn, Nat.succ_eq_add_one, Nat.add_sub_cancel, Bool.and_eq_true, decide_eq_true_eq,
    Nat.cast_pow, Nat.cast_ofNat] at hv
  rw [pow_succ]
  omega

/-- Settles O27: both registers fit, so that their sum lies between `-2^n` and `2^n - 2`. -/
theorem addressIsExactAndBounded : Obligations.AddressIsExactAndBounded := by
  intro f s n hinv hf hn
  have hpos := width_pos_of_configWf hinv.configOk hn
  have hrs1 := two_mul_bounds_of_fits hpos hn (hinv.regsFit f.rs1)
  have hrs2 := two_mul_bounds_of_fits hpos hn (hinv.regsFit f.rs2)
  have hoffset := Fields.wellFormed_iff.1 hf
  have hsum := loadAddress_eq_sum f s
  exact ⟨hsum, storeAddress_eq_loadAddress f s, by omega, by omega⟩

/-! ### LOAD -/

/-- Every register after a LOAD that reads its cell (R120). -/
theorem readReg_loadEffect {f : Fields} {s : State} {v : Int}
    (h : memRead s (loadAddress f s) = some v) (r : Reg) :
    readReg (loadEffect f s) r = if r = zeroIndex then 0 else if r = f.rt then v
      else if r = pcIndex then pc s + 1 else readReg s r := by
  rw [loadEffect_of_memRead h, readReg_writeReg, readReg_advance]

theorem sameMemory_loadEffect (f : Fields) (s : State) : SameMemory s (loadEffect f s) :=
  memRead_congr (sameEnvironment_loadEffect s f).config (loadEffect_mem f s)

/-- Settles O22: the effect of a LOAD whose address is valid. -/
theorem loadCompletes : Obligations.LoadCompletes := by
  intro f s hsat hlo hhi
  have hv : validAddress s.config (loadAddress f s) = true := validAddress_iff.2 ⟨hlo, hhi⟩
  have hread := memRead_of_valid hv
  exact ⟨loadAddress_eq_sum f s, loadEffect f s, _, exec_of_satisfied (i := .load f) hsat, hread,
    readReg_loadEffect hread, loadEffect_flag f s, sameMemory_loadEffect f s, sameControl_loadEffect hv,
    sameEnvironment_loadEffect s f⟩

/-! ### STORE -/

/-- A STORE advances the program counter, faulting or not (R121, R141). -/
@[simp] theorem pc_storeEffect (f : Fields) (s : State) : pc (storeEffect f s) = pc s + 1 := by
  rw [← pc_advance s]
  rcases storeEffect_cases f s with ⟨-, -, e⟩ | ⟨-, e⟩ <;> rw [e] <;> rfl

/-- Settles O23: the effect of a STORE whose address is valid. -/
theorem storeCompletes : Obligations.StoreCompletes := by
  intro f s hm hsat hlo hhi
  have hv : validAddress s.config (storeAddress f s) = true := validAddress_iff.2 ⟨hlo, hhi⟩
  have hregs : SameRegisters s (storeEffect f s) :=
    sameRegisters_effectOf (i := .store f) rfl (by simp [Instr.op]) s
  exact ⟨storeAddress_eq_sum f s, storeEffect f s, exec_of_satisfied (i := .store f) hsat,
    memRead_storeEffect hv, sameMemoryBut_storeEffect s f hm, pc_storeEffect f s, hregs,
    storeEffect_flag f s, sameControl_storeEffect hv, sameEnvironment_storeEffect s f⟩

/-! ### A LOAD after a STORE -/

/-- Settles O32: the STORE's effect leaves the value at its address and the flag as it was, so that the
LOAD is executed and reads that value; it writes no cell. -/
theorem storeThenLoadReturnsTheValue : Obligations.StoreThenLoadReturnsTheValue := by
  intro s t f g hm hsatf hsatg hv h haddr
  obtain rfl : t = storeEffect f s := eq_effectOf_of_exec (i := .store f) hsatf h
  have hread : memRead (storeEffect f s) (loadAddress g (storeEffect f s)) =
      some (if f.rt = pcIndex then pc s + 1 else readReg s f.rt) := by
    rw [haddr, memRead_storeEffect hv]
  have hsat : satisfied (storeEffect f s).flag g.cond = true := by rwa [storeEffect_flag]
  have hstore := sameControl_storeEffect hv
  have hload := sameControl_loadEffect (validAddress_of_memRead hread)
  refine ⟨loadEffect g (storeEffect f s), exec_of_satisfied (i := .load g) hsat, ?_,
    hload.halted.trans hstore.halted, fun hrt => ?_, fun a ha => ?_⟩
  · rw [loadEffect_flag, storeEffect_flag]
  · rw [readReg_loadEffect hread, if_neg hrt, if_pos rfl]
  · rw [sameMemory_loadEffect, sameMemoryBut_storeEffect s f hm a ha]

end Sys2Proof.Machine

/-! ## HALT: completion and frame -/

namespace Sys2Proof.Machine

/-- A HALT writes no register but the program counter (R123). -/
theorem sameRegisters_haltEffect (s : State) : SameRegisters s (haltEffect s) := fun r hr => by
  rw [readReg_haltEffect, sameRegisters_advance s r hr]

theorem sameMemory_haltEffect (s : State) : SameMemory s (haltEffect s) :=
  memRead_congr (haltEffect_config s) (haltEffect_mem s)

/-- Settles O24: under a satisfied predicate HALT answers its effect, which no field enters (R75). -/
theorem haltCompletes : Obligations.HaltCompletes := by
  intro f s hsat
  have hexec : exec (.halt f) s = .next (haltEffect s) := exec_of_satisfied (i := .halt f) hsat
  have henv : SameEnvironment s (haltEffect s) := sameEnvironment_effectOf (.halt f) s
  exact ⟨haltEffect s, hexec, haltEffect_halted s, haltEffect_runState s, pc_haltEffect s,
    sameRegisters_haltEffect s, haltEffect_flag s, sameMemory_haltEffect s, haltEffect_fault s, henv⟩

end Sys2Proof.Machine

/-! ## Control transfer: sequential flow, jumps through register 15, the idioms -/

namespace Sys2Proof.Machine

/-! ### Sequential flow -/

theorem pc_arithmeticEffect_of_ne {f : Fields} (hrt : f.rt ≠ pcIndex) (op : Opcode) (s : State) :
    pc (arithmeticEffect op f s) = pc s + 1 := by
  rw [arithmeticEffect, pc_setFlag, pc_writeReg_other hrt, pc_advance]

/-- A LOAD into another register advances the program counter, faulting or not (R120, R141). -/
theorem pc_loadEffect_of_ne {f : Fields} (hrt : f.rt ≠ pcIndex) (s : State) :
    pc (loadEffect f s) = pc s + 1 := by
  rcases loadEffect_cases f s with ⟨v, -, e⟩ | ⟨-, e⟩ <;> rw [e]
  · rw [pc_writeReg_other hrt, pc_advance]
  · rw [pc_raise, pc_advance]

/-- Only the arithmetic instructions and LOAD write a target register, so that an effect is sequential
but for theirs with target r15 (R126). -/
theorem pc_effectOf_of_sequential {i : Instr}
    (h : i.fields.rt ≠ pcIndex ∨ i.op = .store ∨ i.op = .halt) (s : State) :
    pc (effectOf i s) = pc s + 1 := by
  cases i with
  | halt f => exact pc_haltEffect s
  | store f => exact pc_storeEffect f s
  | load f => exact pc_loadEffect_of_ne (h.resolve_right (by simp [Instr.op])) s
  | add f | sub f | mul f | div f =>
    exact pc_arithmeticEffect_of_ne (h.resolve_right (by simp [Instr.op])) _ s

/-- Settles O28: a skipped instruction is its advance, and an executed one its effect. -/
theorem sequentialFlow : Obligations.SequentialFlow := by
  intro i s t h hflow
  rw [exec_eq_predicated] at h
  rcases predicated_cases h with ⟨hsat, rfl⟩ | ⟨-, rfl⟩
  · exact pc_effectOf_of_sequential (hflow.resolve_left (by simp [hsat])) s
  · exact pc_advance s

/-! ### The sign flag, and the frame of an instruction with a given target -/

/-- The sign flag tested for each of its values (R91). -/
theorem signFlag_eq_iff (e : Int) :
    (signFlag e = flagM ↔ e < 0) ∧ (signFlag e = flagZ ↔ e = 0) ∧ (signFlag e = flagP ↔ 0 < e) := by
  rcases signFlag_cases e with ⟨hs, h⟩ | ⟨hs, h⟩ | ⟨hs, h⟩ <;> rw [h]
  · exact ⟨iff_of_true rfl hs, iff_of_false (by decide) hs.ne, iff_of_false (by decide) hs.not_gt⟩
  · exact ⟨iff_of_false (by decide) hs.not_lt, iff_of_true rfl hs, iff_of_false (by decide) hs.not_gt⟩
  · exact ⟨iff_of_false (by decide) hs.not_gt, iff_of_false (by decide) hs.ne', iff_of_true rfl hs⟩

/-- Executed or skipped, an instruction writes no register but the program counter and its target (R112). -/
theorem sameRegistersBut_of_exec {i : Instr} {s t : State} (h : exec i s = .next t) :
    SameRegistersBut i.fields.rt s t := by
  rw [exec_eq_predicated] at h
  rcases predicated_cases h with ⟨-, rfl⟩ | ⟨-, rfl⟩
  · exact sameRegistersBut_effectOf i s
  · exact fun r _ hr => sameRegisters_advance s r hr

theorem SameRegistersBut.sameRegisters_of_pcIndex {s t : State} (h : SameRegistersBut pcIndex s t) :
    SameRegisters s t := fun r hr => h r hr hr

/-- The target r0 is no write at all (R22). -/
theorem SameRegistersBut.sameRegisters_of_zero {s t : State} (h : SameRegistersBut zeroIndex s t) :
    SameRegisters s t := fun r hr => by
  by_cases h0 : r = zeroIndex
  · rw [h0, readReg_zero, readReg_zero]
  · exact h r h0 hr

/-- An executed ADD whose sum fits, by what a program uses of it: the target, the other registers and the
sign of the sum (R114, R118). -/
theorem add_of_fits {f : Fields} {s : State} {e : Int} (hsat : satisfied s.flag f.cond = true)
    (hsum : readReg s f.rs1 + (readReg s f.rs2 + f.offset) = e) (hfit : fits s.config e = true) :
    ∃ t, exec (.add f) s = .next t ∧ (f.rt ≠ zeroIndex → readReg t f.rt = e) ∧
      SameRegistersBut f.rt s t ∧ (t.flag = flagM ↔ e < 0) ∧ (t.flag = flagZ ↔ e = 0) ∧
      (t.flag = flagP ↔ 0 < e) := by
  obtain ⟨t, hexec, hregs, hflag, -⟩ := addCompletes f s hsat
  simp only [hsum, hfit, if_true] at hregs hflag
  refine ⟨t, hexec, fun hrt => ?_, sameRegistersBut_of_exec hexec, hflag ▸ signFlag_eq_iff e⟩
  rw [hregs, if_neg hrt, if_pos rfl]

/-! ### Jumps -/

/-- An ADD into r15 whose sum fits jumps to the sum (R127, R129). -/
theorem add_jumps {f : Fields} {s : State} {e : Int} (hsat : satisfied s.flag f.cond = true)
    (hrt : f.rt = pcIndex) (hsum : readReg s f.rs1 + (readReg s f.rs2 + f.offset) = e)
    (hfit : fits s.config e = true) :
    ∃ t, exec (.add f) s = .next t ∧ pc t = e ∧ SameRegisters s t ∧
      (t.flag = flagP ↔ 0 < pc t) ∧ (t.flag = flagZ ↔ pc t = 0) ∧ (t.flag = flagM ↔ pc t < 0) := by
  obtain ⟨t, hexec, htarget, hregs, hM, hZ, hP⟩ := add_of_fits hsat hsum hfit
  rw [hrt] at htarget hregs
  have hpc : pc t = e := htarget pcIndex_ne_zero
  rw [← hpc] at hM hZ hP
  exact ⟨t, hexec, hpc, hregs.sameRegisters_of_pcIndex, hP, hZ, hM⟩

/-- A LOAD into r15 from a valid address jumps to the value loaded, and leaves the flag (R130). -/
theorem load_jumps {f : Fields} {s : State} {v : Int} (hsat : satisfied s.flag f.cond = true)
    (hrt : f.rt = pcIndex) (hread : memRead s (loadAddress f s) = some v) :
    ∃ t, exec (.load f) s = .next t ∧ pc t = v ∧ SameRegisters s t ∧ t.flag = s.flag := by
  have hregs : SameRegistersBut f.rt s (loadEffect f s) := sameRegistersBut_loadEffect s f
  rw [hrt] at hregs
  refine ⟨loadEffect f s, exec_of_satisfied (i := .load f) hsat, ?_, hregs.sameRegisters_of_pcIndex,
    loadEffect_flag f s⟩
  rw [loadEffect_of_memRead hread, hrt, pc_writeReg_pcIndex]

/-- Settles O30: with r15 as one source and r0 as the other the sum is the own address plus the offset. -/
theorem jumpsThroughRegisterFifteen : Obligations.JumpsThroughRegisterFifteen := by
  intro s cond k hsat
  have hfirst : pc s + (readReg s zeroIndex + k) = pc s + k := by rw [readReg_zero, zero_add]
  have hsecond : readReg s zeroIndex + (pc s + k) = pc s + k := by rw [readReg_zero, zero_add]
  refine ⟨fun hfit i hi => ?_, fun rs1 rs2 v hread => ?_⟩
  · rcases hi with rfl | rfl
    · exact add_jumps hsat rfl hfirst hfit
    · exact add_jumps hsat rfl hsecond hfit
  · exact load_jumps hsat rfl (by rwa [loadAddress_eq_sum])

/-! ### The idioms -/

/-- SUB into r0 of two registers compares them, whether the difference fits or not (R131). -/
theorem sub_compares {f : Fields} {s : State} (hsat : satisfied s.flag f.cond = true)
    (hrt : f.rt = zeroIndex) (hoffset : f.offset = 0) :
    ∃ t, exec (.sub f) s = .next t ∧ SameRegisters s t ∧
      (fits s.config (readReg s f.rs1 - readReg s f.rs2) = true →
        (t.flag = flagM ↔ readReg s f.rs1 < readReg s f.rs2) ∧
        (t.flag = flagZ ↔ readReg s f.rs1 = readReg s f.rs2) ∧
        (t.flag = flagP ↔ readReg s f.rs2 < readReg s f.rs1)) ∧
      (fits s.config (readReg s f.rs1 - readReg s f.rs2) = false → t.flag = flagV) := by
  obtain ⟨t, hexec, -, hflag, -⟩ := subCompletes f s hsat
  have hregs : SameRegistersBut f.rt s t := sameRegistersBut_of_exec hexec
  rw [hrt] at hregs
  rw [hoffset, add_zero] at hflag
  refine ⟨t, hexec, hregs.sameRegisters_of_zero, fun hfit => ?_, fun hfit => ?_⟩
  · have hsign : t.flag = signFlag (readReg s f.rs1 - readReg s f.rs2) := hflag.trans (if_pos hfit)
    simpa only [hsign, sub_neg, sub_eq_zero, sub_pos] using
      signFlag_eq_iff (readReg s f.rs1 - readReg s f.rs2)
  · rw [hflag, hfit, if_neg Bool.false_ne_true]

/-- Settles O31: test, move and load constant are an ADD whose sum is one register or the offset. -/
theorem idiomsHaveTheirEffects : Obligations.IdiomsHaveTheirEffects := by
  intro s a b d k hsat
  have hregister : readReg s a + (readReg s 0 + 0) = readReg s a := by simp
  have hconstant : readReg s 0 + (readReg s 0 + k) = k := by simp
  refine ⟨?compare, fun hfit => ?test, fun hfit => ?move, fun hfit => ?constant⟩
  case compare =>
    obtain ⟨t, h⟩ := sub_compares
      (f := { cond := always, rt := 0, rs1 := a, rs2 := b, offset := 0 }) hsat rfl rfl
    exact ⟨_, t, rfl, h⟩
  case test =>
    obtain ⟨t, hexec, -, hregs, hflag⟩ := add_of_fits
      (f := { cond := always, rt := 0, rs1 := a, rs2 := 0, offset := 0 }) hsat hregister hfit
    exact ⟨_, t, rfl, hexec, hregs.sameRegisters_of_zero, hflag⟩
  case move =>
    obtain ⟨t, h⟩ := add_of_fits
      (f := { cond := always, rt := d, rs1 := a, rs2 := 0, offset := 0 }) hsat hregister hfit
    exact ⟨_, t, rfl, h⟩
  case constant =>
    obtain ⟨t, h⟩ := add_of_fits
      (f := { cond := always, rt := d, rs1 := 0, rs2 := 0, offset := k }) hsat hconstant hfit
    exact ⟨_, t, rfl, h⟩

end Sys2Proof.Machine

/-! ## Exceptions: the fetch fault, the decode fault, the fault at a data address, the latch -/

namespace Sys2Proof.Machine

/-! ### What each kind of fault leaves -/

section Exceptions

variable {s : State}

/-- A fault entered before the event leaves all but run-state and latch as it was (R135, R136). -/
theorem faults_before_the_event {c : FaultCause} {info : Int} (hnone : ∀ w i, ¬ Fetches s w i)
    (hstep : step s = .next (raise c info (pc s) (begunSilently s))) :
    tracePort s = none ∧ ∃ t, step s = .next t ∧ t.runState = .faulted ∧
      t.fault = some { cause := c, info := info, atPc := pc s } ∧
      pc t = pc s ∧ SameRegisters s t ∧ t.flag = s.flag ∧ t.mem = s.mem ∧ t.halted = s.halted ∧
      t.config = s.config :=
  ⟨tracePort_of_not_fetches hnone, _, hstep, rfl, rfl, rfl, fun _ _ => rfl, rfl, rfl, rfl, rfl⟩

/-- A LOAD or STORE at an invalid address enters the fault of its kind on the state that has been advanced
and whose event is published (R137, R141). -/
theorem Fetches.step_of_invalid_data_address {w : Int} {i : Instr} {f : Fields} (hf : Fetches s w i)
    (hi : i = .load f ∨ i = .store f) (hsat : satisfied s.flag f.cond = true)
    (hv : validAddress s.config (readReg s f.rs1 + readReg s f.rs2 + f.offset) = false) :
    step s = .next (raise (if i = .load f then .loadAddress else .storeAddress)
      (readReg s f.rs1 + readReg s f.rs2 + f.offset) (pc s) (advance (begun w i s))) := by
  rcases hi with rfl | rfl
  · have hload := loadAddress_eq_sum f (begun w (.load f) s)
    rw [hf.step_of_satisfied hsat, effectOf, loadEffect_of_invalid (by rw [hload]; exact hv), hload,
      if_pos rfl]
    rfl
  · have hstore := storeAddress_eq_sum f (begun w (.store f) s)
    rw [hf.step_of_satisfied hsat, effectOf, storeEffect_of_invalid (by rw [hstore]; exact hv), hstore,
      if_neg (by simp)]
    rfl

end Exceptions

/-- A fault entered after the advance leaves all but program counter, run-state and latch as it was (R137). -/
theorem raise_advance_frame (c : FaultCause) (info atPc : Int) (s : State) :
    pc (raise c info atPc (advance s)) = pc s + 1 ∧
    SameRegisters s (raise c info atPc (advance s)) ∧
    (raise c info atPc (advance s)).flag = s.flag ∧
    SameMemory s (raise c info atPc (advance s)) ∧
    (raise c info atPc (advance s)).halted = s.halted ∧
    (raise c info atPc (advance s)).config = s.config :=
  ⟨pc_advance s, sameRegisters_advance s, advance_flag s,
    memRead_congr (advance_config s) (advance_mem s), advance_halted s, advance_config s⟩

/-! ### The four faults -/

/-- Settles O35: no cell is read at the program counter, so that nothing is fetched. -/
theorem invalidFetchAddressFaults : Obligations.InvalidFetchAddressFaults := by
  intro s hs hpc
  have hread : memRead s (pc s) = none := memRead_of_invalid (validAddress_eq_false_iff.2 hpc)
  have hnone (w : Int) (i : Instr) : ¬ Fetches s w i := fun hf => by
    cases hread.symm.trans hf.word
  exact faults_before_the_event hnone (hs.step_of_invalid_fetch hread)

/-- Settles O36: the word read decodes to no instruction, so that none is fetched. -/
theorem malformedWordLeavesTheStateAlone : Obligations.MalformedWordLeavesTheStateAlone := by
  intro s w e hs hread hmal
  have hnone (w' : Int) (i : Instr) : ¬ Fetches s w' i := fun hf => by
    obtain rfl := Option.some.inj (hread.symm.trans hf.word)
    cases hmal.symm.trans hf.decodes
  exact faults_before_the_event hnone (hs.step_of_malformed hread hmal)

/-- Settles O26: executed, the fault is entered on the state begun and advanced; skipped, that state is all. -/
theorem invalidDataAddressFaults : Obligations.InvalidDataAddressFaults := by
  intro s w i f hf hi addr
  have hfields : i.fields = f := by rcases hi with rfl | rfl <;> rfl
  refine ⟨tracePort_of_fetches hf, fun hsat haddr => ?executed, fun hskip => ?skipped⟩
  case executed =>
    have hv : validAddress s.config addr = false := validAddress_eq_false_iff.2 haddr
    exact ⟨_, hf.step_of_invalid_data_address hi hsat hv, rfl, rfl,
      raise_advance_frame _ _ _ (begun w i s)⟩
  case skipped =>
    have hcontrol := sameControl_advance (begun w i s)
    exact ⟨_, hf.step_of_skipped (hfields ▸ hskip), hcontrol.runState.trans hf.steps.running,
      hcontrol.fault⟩

/-- Settles O37: each of the four conditions ends in the fault entry with its cause (R140). -/
theorem faultLatchRecordsTheCause : Obligations.FaultLatchRecordsTheCause := by
  refine ⟨rfl, rfl, rfl, rfl, fun s c info hx => ?_⟩
  obtain ⟨u, hstep, -⟩ := hx.step_eq
  exact ⟨_, hstep, rfl, rfl⟩

end Sys2Proof.Machine

/-! ## Reset and hazards: the run command, the first step of a run, the single-stepped run -/

namespace Sys2Proof.Machine

/-! ### The run command -/

/-- While RUNNING an edge reads `rst`, `single_step` and `step_ack` of its sample and nothing else (R159). -/
theorem clockEdge_of_running {s : State} (hs : s.runState = .running) : clockEdge s =
    if !configWf s.config then .settled (.refused .configurationOutOfRange)
    else if (sample s).rst then .settled (.next (hardwareReset (beginEdge s)))
    else if waitsForAck (sample s) s then .settled (.next (beginEdge s))
    else fetchDecode (begunSilently s) := by
  rw [clockEdge, if_pos hs]
  rfl

/-- Settles O49: the edge of a RUNNING state does not read `run_start` or `run_addr`. -/
theorem runStartIsIgnoredWhileRunning : Obligations.RunStartIsIgnoredWhileRunning := by
  intro s p rest start addr hs
  rw [step, step, clockEdge_of_running (by exact hs), clockEdge_of_running (by exact hs)]
  rfl

/-- Before its first step a run does not wait for an acknowledgment (R161). -/
theorem stepsAt_runCommand {s : State} {a : Int} (hc : configWf s.config = true)
    (hr : (sample (runCommand a s)).rst = false) : StepsAt (runCommand a s) where
  configOk := by rwa [runCommand_config]
  notReset := hr
  running := runCommand_runState a s
  notWaiting := by simp [waitsForAck]

theorem sameRegisters_runCommand (a : Int) (s : State) : SameRegisters s (runCommand a s) :=
  fun r hr => by rw [readReg_runCommand, if_neg hr]

/-- Settles O48: the edge is the run command itself, after which the first step fetches at the address. -/
theorem runCommandStartsARun : Obligations.RunCommandStartsARun := by
  refine ⟨rfl, fun s hc ⟨hr, hs, hstart⟩ hfits => ?_⟩
  refine ⟨_, step_of_runCommand hc hr hs hstart hfits, pc_runCommand _ _, rfl, rfl, rfl,
    sameRegisters_runCommand _ (beginEdge s), runCommand_flag _ _, runCommand_mem _ _,
    runCommand_config _ _, fun hv hrst => ?_⟩
  have hsteps := stepsAt_runCommand (s := beginEdge s) hc hrst
  exact ⟨_, hsteps.step_of_invalid_fetch (memRead_of_invalid hv), rfl, rfl⟩

/-! ### The first step of a run -/

/-- A RUNNING machine has not ended, so that its run goes on with a step (R157). -/
theorem RunsTo.step_of_running {s u : State} (h : RunsTo s u) (hs : s.runState = .running) :
    ∃ t, Machine.step s = .next t ∧ RunsTo t u := by
  cases h with
  | ended he => rcases he with he | he <;> cases hs.symm.trans he
  | step _ ht hu => exact ⟨_, ht, hu⟩

/-- Settles O53: the run command leaves the machine RUNNING, and an executed HALT stops it one past the
instruction. -/
theorem runPerformsAtLeastOneStep : Obligations.RunPerformsAtLeastOneStep := by
  refine ⟨fun s u a hrun => RunsTo.step_of_running hrun (runCommand_runState a s), fun s a f hx => ?_⟩
  obtain ⟨w, hstep⟩ := hx.step_eq
  have hend : Ended (haltEffect (begun w (.halt f) (runCommand a s))) := .inl rfl
  refine ⟨_, hstep, hend, .step (runCommand_runState a s) hstep (.ended hend), rfl, ?_⟩
  calc pc (haltEffect (begun w (.halt f) (runCommand a s)))
    _ = pc (runCommand a s) + 1 := by rw [pc_haltEffect, pc_begun]
    _ = a + 1 := by rw [pc_runCommand]

/-! ### No operation of an instruction reads or writes the model's own fields -/

section Architectural

variable (s : State)

theorem architectural_writeReg (r : Reg) (v : Int) :
    architectural (writeReg r v s) = writeReg r v (architectural s) := by
  unfold writeReg
  split <;> rfl

theorem architectural_advance : architectural (advance s) = advance (architectural s) :=
  architectural_writeReg s pcIndex _

theorem architectural_arithmeticEffect (op : Opcode) (f : Fields) :
    architectural (arithmeticEffect op f s) = arithmeticEffect op f (architectural s) := by
  calc architectural (arithmeticEffect op f s)
    _ = setFlag (aluOf op f s).2 (architectural (writeReg f.rt (aluOf op f s).1 (advance s))) := rfl
    _ = arithmeticEffect op f (architectural s) := by
      rw [architectural_writeReg, architectural_advance]
      rfl

theorem architectural_haltEffect : architectural (haltEffect s) = haltEffect (architectural s) := by
  rw [haltEffect.eq_def (architectural s), ← architectural_advance]
  rfl

theorem architectural_raise (c : FaultCause) (info atPc : Int) :
    architectural (raise c info atPc s) = raise c info atPc (architectural s) := rfl

theorem architectural_loadEffect (f : Fields) :
    architectural (loadEffect f s) = loadEffect f (architectural s) := by
  rcases loadEffect_cases f s with ⟨v, hv, e⟩ | ⟨hv, e⟩
  · rw [e, architectural_writeReg, architectural_advance]
    exact (loadEffect_of_memRead (s := architectural s) hv).symm
  · rw [e, architectural_raise, architectural_advance]
    exact (loadEffect_of_invalid (s := architectural s) (validAddress_of_memRead_eq_none hv)).symm

theorem architectural_storeEffect (f : Fields) :
    architectural (storeEffect f s) = storeEffect f (architectural s) := by
  rcases storeEffect_cases f s with ⟨hv, -, e⟩ | ⟨hv, e⟩
  · rw [e, storeEffect_of_valid (s := architectural s) hv, ← architectural_advance]
    rfl
  · rw [e, storeEffect_of_invalid (s := architectural s) hv, ← architectural_advance]
    rfl

theorem architectural_effectOf (i : Instr) :
    architectural (effectOf i s) = effectOf i (architectural s) := by
  cases i with
  | halt f => exact architectural_haltEffect s
  | load f => exact architectural_loadEffect s f
  | store f => exact architectural_storeEffect s f
  | add f | sub f | mul f | div f => exact architectural_arithmeticEffect s _ f

end Architectural

/-- An instruction answers the same on two states that differ in the model's own fields only. -/
theorem exec_of_architectural_eq {s u t : State} (h : architectural u = architectural s) {i : Instr}
    (he : exec i s = .next t) : ∃ v, exec i u = .next v ∧ architectural v = architectural t := by
  have hflag : u.flag = s.flag := (congrArg State.flag h :)
  rw [exec_eq_predicated] at he ⊢
  rcases predicated_cases he with ⟨hsat, rfl⟩ | ⟨hskip, rfl⟩
  · refine ⟨_, predicated_satisfied (hflag ▸ hsat), ?_⟩
    rw [architectural_effectOf, architectural_effectOf, h]
  · refine ⟨_, predicated_skipped (hflag ▸ hskip), ?_⟩
    rw [architectural_advance, architectural_advance, h]

/-- Every edge uses up one sample (log entry 7). -/
theorem inputs_of_step {s t : State} (h : step s = .next t) : t.inputs = s.inputs.tail := by
  obtain ⟨-, ⟨-, rfl⟩ | ⟨-, -, -, -, rfl⟩ | ⟨-, -, -, rfl⟩ | ⟨-, -, -, rfl⟩ | ⟨-, -, rfl⟩ |
    ⟨_, _, -, -, -, rfl⟩ | ⟨w, i, hf, -⟩⟩ := step_cases h
  · -- reset
    rfl
  · -- run command
    exact runCommand_inputs _ _
  · -- no command outside a run
    rfl
  · -- single-step wait
    rfl
  · -- invalid fetch address
    rfl
  · -- malformed word
    rfl
  · -- the instruction fetched
    rcases hf.next_cases h with rfl | rfl
    · exact (sameEnvironment_effectOf _ _).inputs
    · exact advance_inputs _

/-! ### The single-stepped run beside the free run -/

/-- A pause that is acknowledged at its edge is no wait (R161). -/
theorem waitsForAck_of_acknowledged {p : Inputs} (hack : p.singleStep = true → p.stepAck = true)
    (s : State) : waitsForAck p s = false := by
  cases hp : p.singleStep with
  | false => simp [waitsForAck, hp]
  | true => simp [waitsForAck, hack hp]

/-- `u` is the state of the free run that `s` stands at: no sample is left to come, and the two differ in
the model's own fields only (R161). -/
structure FreeTwin (s u : State) : Prop where
  quiet : u.inputs = []
  same : architectural u = architectural s

section FreeTwin

variable {s u t : State}

theorem freeTwin_self (s : State) : FreeTwin s { s with inputs := [] } := ⟨rfl, rfl⟩

theorem FreeTwin.config (h : FreeTwin s u) : u.config = s.config :=
  (congrArg State.config h.same :)

theorem FreeTwin.runState (h : FreeTwin s u) : u.runState = s.runState :=
  (congrArg State.runState h.same :)

theorem FreeTwin.pc (h : FreeTwin s u) : pc u = pc s :=
  (congrArg Machine.pc h.same :)

theorem FreeTwin.memRead_pc (h : FreeTwin s u) :
    memRead u (Machine.pc u) = memRead s (Machine.pc s) :=
  (congrArg (fun x => memRead x (Machine.pc x)) h.same :)

theorem FreeTwin.sample (h : FreeTwin s u) : sample u = Inputs.quiet := by
  rw [Machine.sample, h.quiet]
  rfl

/-- The free run never waits. -/
theorem FreeTwin.stepsAt (h : FreeTwin s u) (hs : StepsAt s) : StepsAt u where
  configOk := h.config ▸ hs.configOk
  notReset := by rw [h.sample]; rfl
  running := h.runState.trans hs.running
  notWaiting := by rw [h.sample]; exact waitsForAck_quiet u

theorem FreeTwin.fetches (h : FreeTwin s u) {w : Int} {i : Instr} (hf : Fetches s w i) :
    Fetches u w i where
  steps := h.stepsAt hf.steps
  word := h.memRead_pc.trans hf.word
  decodes := hf.decodes

/-- What one edge of the free run does is a twin again when the rest of the state agrees. -/
theorem FreeTwin.of_step {v : State} (h : FreeTwin s u) (hv : step u = .next v)
    (hsame : architectural v = architectural t) : FreeTwin t v where
  quiet := by rw [inputs_of_step hv, h.quiet]; rfl
  same := hsame

/-- An edge with no reset and no run command is a wait, after which the twin is still the same, or an edge
of the free run. -/
theorem FreeTwin.step (h : FreeTwin s u) (hrst : (Machine.sample s).rst = false)
    (hstart : (Machine.sample s).runStart = false) (hs : step s = .next t) :
    (waitsForAck (Machine.sample s) s = true ∧ FreeTwin t u) ∨
      ∃ v, Machine.step u = .next v ∧ FreeTwin t v := by
  obtain ⟨hc, ⟨hr, -⟩ | ⟨-, -, hgo, -⟩ | ⟨-, hrs, -, rfl⟩ | ⟨-, -, hw, rfl⟩ | ⟨hst, hm, rfl⟩ |
    ⟨w, e, hst, hm, hd, rfl⟩ | ⟨w, i, hf, he⟩⟩ := step_cases hs
  · cases hrst.symm.trans hr
  · cases hstart.symm.trans hgo
  · -- no command outside a run
    have hu := step_of_no_command (h.config ▸ hc) (by rw [h.sample]; rfl) (h.runState ▸ hrs)
      (by rw [h.sample]; rfl)
    exact .inr ⟨_, hu, h.of_step hu h.same⟩
  · -- single-step wait
    exact .inl ⟨hw, h.quiet, h.same⟩
  · -- invalid fetch address
    have hu := (h.stepsAt hst).step_of_invalid_fetch (h.memRead_pc.trans hm)
    rw [h.pc] at hu
    exact .inr ⟨_, hu, h.of_step hu (congrArg (raise _ _ _) h.same)⟩
  · -- malformed word
    have hu := (h.stepsAt hst).step_of_malformed (h.memRead_pc.trans hm) hd
    rw [h.pc] at hu
    exact .inr ⟨_, hu, h.of_step hu (congrArg (raise _ _ _) h.same)⟩
  · -- the instruction fetched
    obtain ⟨v, hv, hsame⟩ :=
      exec_of_architectural_eq (s := begun w i s) (u := begun w i u) h.same he
    have hu := (h.fetches hf).step_eq.trans hv
    exact .inr ⟨v, hu, h.of_step hu hsame⟩

/-- Any number of edges of a single-stepped run, each a wait or an edge of the free run. -/
theorem FreeTwin.edges (k : Nat) (h : FreeTwin s u)
    (hin : ∀ p ∈ s.inputs, p.rst = false ∧ p.runStart = false) (ht : edges k s = some t) :
    ∃ j v, j ≤ k ∧ Machine.edges j u = some v ∧ FreeTwin t v ∧
      ((∀ p ∈ s.inputs, p.singleStep = true → p.stepAck = true) → j = k) := by
  induction k generalizing s u with
  | zero =>
    obtain rfl : s = t := Option.some.inj ht
    exact ⟨0, u, le_rfl, rfl, h, fun _ => rfl⟩
  | succ k ih =>
    obtain ⟨s', hs', hrest⟩ := step_of_edges_succ ht
    obtain ⟨hrst, hstart⟩ :=
      sample_of_forall_mem (P := fun p => p.rst = false ∧ p.runStart = false) ⟨rfl, rfl⟩ hin
    have htail (p : Inputs) (hp : p ∈ s'.inputs) : p ∈ s.inputs :=
      List.mem_of_mem_tail (inputs_of_step hs' ▸ hp)
    have hin' : ∀ p ∈ s'.inputs, p.rst = false ∧ p.runStart = false :=
      fun p hp => hin p (htail p hp)
    rcases h.step hrst hstart hs' with ⟨hw, h'⟩ | ⟨u', hu', h'⟩
    · -- the free run stays where it is
      obtain ⟨j, v, hj, hv, htwin, -⟩ := ih h' hin' hrest
      refine ⟨j, v, Nat.le_succ_of_le hj, hv, htwin, fun hack => ?_⟩
      have hsample := sample_of_forall_mem (P := fun p => p.singleStep = true → p.stepAck = true)
        nofun hack
      cases hw.symm.trans (waitsForAck_of_acknowledged hsample s)
    · -- the free run makes the edge too
      obtain ⟨j, v, hj, hv, htwin, hpace⟩ := ih h' hin' hrest
      exact ⟨j + 1, v, Nat.succ_le_succ hj, (edges_succ_of_step j hu').trans hv, htwin,
        fun hack => congrArg (· + 1) (hpace fun p hp => hack p (htail p hp))⟩

end FreeTwin

/-- Settles O52: the single-stepped run starts at the twin of the free run's start, and each of its edges
keeps it at a twin of a state of the free run. -/
theorem singleSteppedRunFollowsTheFreeRun : Obligations.SingleSteppedRunFollowsTheFreeRun := by
  intro s t hin ht
  obtain ⟨j, v, hj, hv, htwin, hpace⟩ := (freeTwin_self s).edges _ hin ht
  refine ⟨⟨j, v, hj, hv, htwin.same.symm⟩, fun hack => ?_⟩
  obtain rfl := hpace hack
  exact ⟨v, hv, htwin.same.symm⟩

end Sys2Proof.Machine
